-- ==== Sys2Proof/Word.lean ====
section
/-! DEFINITION. The two value types of the LC-3_VM core: the 16-bit word and the 8-bit console character
(00_scope.md R6, R9). -/

namespace Sys2Proof

/-- A register value, memory word, address or instruction: a 16-bit vector (R9). `a + b` is addition modulo
65536 (R10), `a &&& b` and `~~~a` are the bitwise operations of R13. -/
abbrev Word := BitVec 16

/-- A console character, or one half of a word: 8 bits (R7, console character width). -/
abbrev Byte := BitVec 8

end Sys2Proof
end

