-- ==== Sys2Proof/Config.lean ====
section
/-! DEFINITION. The implementation parameters of 00_scope.md R7, and the free values: what the spec leaves open and
gives no default is an opaque constant, so that no proof can learn its value. -/

namespace Sys2Proof

/-- The parameters of 00_scope.md R7 that the source leaves open. A state carries one such record (`State.cfg`, log 3),
no step changes it, and a statement over every state is a statement over every value of the parameters. -/
structure Config where
  /-- `KBSR_ADDR`, the address of the keyboard status register (20_memory.md R55). -/
  kbsrAddr : Word
  /-- `KBDR_ADDR`, the address of the keyboard data register (20_memory.md R56); not equal to `KBSR_ADDR`. -/
  kbdrAddr : Word
  /-- `PC_RESET`, the address of the first instruction fetched after reset (10_state.md R38). -/
  pcReset : Word
  /-- `TRAP_LINKS_R7`: whether TRAP writes the incremented `pc` to R7 before it dispatches (43_trap.md R182). -/
  trapLinksR7 : Bool
  /-- `IN_PROMPT`, the characters IN sends before it reads (43_trap.md R187). -/
  inPrompt : List Byte
  /-- `HALT_NOTICE`, the characters HALT sends (43_trap.md R189). -/
  haltNotice : List Byte
deriving DecidableEq, Repr

/-- R7's one constraint between parameters: `KBDR_ADDR` is not equal to `KBSR_ADDR`. -/
def Config.wf (c : Config) : Bool := c.kbsrAddr != c.kbdrAddr

/-- What the console port does once its listed answers are used up (20_memory.md R72; log 9): it never answers
again, or it gives one answer every time it is asked (`none` for ever is an input that has ended). -/
inductive PortRest where
  /-- The port never answers: the step that asks does not complete. -/
  | silent
  /-- The port gives this answer to every further `ConsoleIn()`. -/
  | repeats (answer : Option Byte)
deriving DecidableEq, Repr, Inhabited

/-- FREE VALUE (log 6): `TRAP_LINKS_R7` of the machine that `State.reset` is; the spec gives no default (D5). -/
opaque Config.freeTrapLinksR7 : Bool

/-- FREE VALUE (log 7): `IN_PROMPT`; the spec gives no default (D6). -/
opaque Config.freeInPrompt : List Byte

/-- FREE VALUE (log 7): `HALT_NOTICE`; the spec gives no default (D6). -/
opaque Config.freeHaltNotice : List Byte

/-- FREE VALUE (log 9): the answers the console port gives, in order, to the calls of `ConsoleIn()` after power-up
(20_memory.md R72: "a free input of the step"). -/
opaque Config.freeAnswers : List (Option Byte)

/-- FREE VALUE (log 9): what the port does after them. -/
opaque Config.freeAnswerRest : PortRest

/-- The configuration of `State.reset`: the spec's defaults where R7 gives one (logs 4 and 5, PRESUMED: general
knowledge), free values where it gives none. -/
def Config.ofReset : Config :=
  { kbsrAddr := 0xFE00#16
    kbdrAddr := 0xFE02#16
    pcReset := 0x3000#16
    trapLinksR7 := Config.freeTrapLinksR7
    inPrompt := Config.freeInPrompt
    haltNotice := Config.freeHaltNotice }

end Sys2Proof
end

