-- ==== Sys2Proof/Machine/State.lean ====
section
/-! DEFINITION. The state of the core, its reset value, and the reasons a step can stop (10_state.md). Plain data only. -/

namespace Sys2Proof.Machine

/-- The eight general registers `x[0]` to `x[7]` (10_state.md R20 (a), R21). -/
structure Regs where
  r0 : Word
  r1 : Word
  r2 : Word
  r3 : Word
  r4 : Word
  r5 : Word
  r6 : Word
  r7 : Word
deriving DecidableEq, Repr

/-- The condition code: exactly one of three mutually exclusive values (10_state.md R25). -/
inductive Cond where
  | negative | zero | positive
deriving DecidableEq, Repr

/-- The fatal kinds (60_exceptions.md R211). -/
inductive FatalKind where
  /-- RTI or the reserved opcode was executed: exit code 10. -/
  | reservedOpcode
  /-- Exit code 20. No rule raises it (60_exceptions.md R226). -/
  | undefinedOpcode
  /-- TRAP with an undefined code was executed: exit code 21. -/
  | undefinedTrap
deriving DecidableEq, Repr

/-- The run state (10_state.md R33, R34): "either executing normally, halted, or dead". -/
inductive RunState where
  | running
  | halted
  | dead (kind : FatalKind)
deriving DecidableEq, Repr

/-- The memory: a list of (key, byte) cells in one canonical form, keys strictly rising and no zero byte listed. The 16-bit
word at address `a` is the two cells 2a (bits 15:8) and 2a + 1 (bits 7:0); the machine cannot see how a word is made of bytes
(20_memory.md R59; log 1). -/
abbrev Memory := List Host.Cell

/-- The console, seen from the core: the two environment objects of 10_state.md R35 (log 9). -/
structure Console where
  /-- The port's answers to the coming calls of `ConsoleIn()`, in order: `some c` delivers and consumes the next input
  character, `none` consumes nothing (20_memory.md R70). The unconsumed input stream is the characters among them. -/
  answers : List (Option Byte)
  /-- What the port does when `answers` is used up (20_memory.md R72). -/
  rest : PortRest
  /-- The output record: every character sent so far, oldest first (20_memory.md R71). -/
  output : List Byte
deriving DecidableEq, Repr

/-- The complete state: 10_state.md R20 (a) to (e), the console's two objects (R35), and the implementation parameters
(00_scope.md R7, log 3). -/
structure State where
  regs : Regs
  pc : Word
  cond : Cond
  mem : Memory
  run : RunState
  console : Console
  cfg : Config
deriving DecidableEq, Repr

/-- Why a step does not complete. None of these is a fatal condition of the hardware (those are NEXT states with
`run = dead k`); each carries the state the suspended step had reached, so that the output sent before it can be read
(43_trap.md R192). SAFE: the model stops where the spec gives no after-state. -/
inductive Fault where
  /-- `ConsoleIn()` is never answered (20_memory.md R72: "the step that asked never completes"). Raised by a poll (any
  read of `KBSR_ADDR`), GETC and IN. Safe (log 10). -/
  | consoleNeverAnswers (reached : State)
  /-- The port answered `none` inside GETC or IN (43_trap.md R184, R187, U4: "stuck"). Safe (log 11). -/
  | consoleAnsweredNone (reached : State)
  /-- PUTS or PUTSP met no zero word and never ends (43_trap.md R186, U7: "an endless step"). Safe (log 12). -/
  | stringNeverEnds (reached : State)
  /-- "A read/parse failure on any image": exit code 1, the core never runs (70_reset_and_hazards.md R247). Raised by the
  image loader only, never by a step. Safe (log 27). -/
  | loadFailure
deriving DecidableEq, Repr

/-- What the model refuses. SAFE, both. -/
inductive Refusal where
  /-- An instruction with no meaning yet, by its mnemonic: raised only in `exec`'s own arms, and no arm raises it now. -/
  | notModelled (mnemonic : String)
  /-- An image whose words run past address 0xFFFF: "a model refuses such an image" (70_reset_and_hazards.md R246 (d)).
  Raised by the image loader only, never by a step (log 27). -/
  | imageTooLong
deriving DecidableEq, Repr

/-- All eight registers zero (10_state.md R38). -/
def Regs.zero : Regs := ⟨0#16, 0#16, 0#16, 0#16, 0#16, 0#16, 0#16, 0#16⟩

/-- The state the reset input leaves (70_reset_and_hazards.md R240, 10_state.md R38), for given parameters and console, which
reset does not touch: registers and memory zero, `pc` = `PC_RESET`, `cond` = ZERO (D4, log 8), `run` = RUNNING (log 14). -/
def State.resetWith (cfg : Config) (console : Console) : State :=
  { regs := Regs.zero
    pc := cfg.pcReset
    cond := .zero
    mem := []
    run := .running
    console := console
    cfg := cfg }

/-- The machine right after reset, before any image is loaded: the default parameters (logs 4, 5), free values for what has
no default (logs 6, 7, 9), and an empty output record (log 15). -/
def State.reset : State :=
  State.resetWith Config.ofReset ⟨Config.freeAnswers, Config.freeAnswerRest, []⟩

end Sys2Proof.Machine
end

