-- ==== Sys2Proof/Machine/Flags.lean ====
section
/-! DEFINITION. The condition code: how it is computed and how BR reads it (10_state.md R25 to R29, 41_control.md R142). -/

namespace Sys2Proof.Machine

/-- `setcc(v)` (10_state.md R27): ZERO for 0, NEGATIVE when bit 15 is set, POSITIVE otherwise. -/
def setcc (v : Word) : Cond :=
  if v = 0#16 then .zero else if v.getLsbD 15 then .negative else .positive

/-- The one-hot value of the condition code (10_state.md R26; which bit is which flag is PRESUMED, G2, log 17). -/
def Cond.bits : Cond → BitVec 3
  | .negative => 0b100#3
  | .zero => 0b010#3
  | .positive => 0b001#3

/-- The branch test `(ir[11:9] & cond) != 0` (41_control.md R141). -/
def branchTaken (mask : BitVec 3) (cond : Cond) : Bool := mask &&& cond.bits != 0b000#3

end Sys2Proof.Machine
end

