-- ==== Sys2Proof/Syntax.lean ====
section
/-! DEFINITION. The instruction set as syntax: one constructor of `Instr` for each row of spec/opcode_table.json
(30_encoding.md R82 to R85, R92, R93). -/

namespace Sys2Proof

/-- The eight general registers R0 to R7 (10_state.md R21). -/
inductive Reg where
  | r0 | r1 | r2 | r3 | r4 | r5 | r6 | r7
deriving DecidableEq, Repr

/-- The six console service routines a trap code can select (30_encoding.md R92). -/
inductive TrapRoutine where
  | getc | out | puts | inChar | putsp | halt
deriving DecidableEq, Repr

/-- One constructor per row of the opcode table: the nineteen primary forms of 30_encoding.md R85, then the eight
alias rows that refine TRAP and JMP (R93, log 2). Fields hold what the decoder cuts out, before any extension;
bits no field uses are not kept (R88). -/
inductive Instr where
  /-- BR: mask = `ir[11:9]` (n, z, p), offset9 = `ir[8:0]` (41_control.md R141). -/
  | br (mask : BitVec 3) (offset9 : BitVec 9)
  /-- ADD, register form (40_alu.md R121). -/
  | addReg (dr sr1 sr2 : Reg)
  /-- ADD, immediate form (40_alu.md R122). -/
  | addImm (dr sr1 : Reg) (imm5 : BitVec 5)
  /-- LD (42_load_store.md R162). -/
  | ld (dr : Reg) (offset9 : BitVec 9)
  /-- ST (42_load_store.md R166). -/
  | st (sr : Reg) (offset9 : BitVec 9)
  /-- JSR (41_control.md R145). -/
  | jsr (offset11 : BitVec 11)
  /-- JSRR (41_control.md R147). -/
  | jsrr (base : Reg)
  /-- AND, register form (40_alu.md R123). -/
  | andReg (dr sr1 sr2 : Reg)
  /-- AND, immediate form (40_alu.md R124). -/
  | andImm (dr sr1 : Reg) (imm5 : BitVec 5)
  /-- LDR (42_load_store.md R164). -/
  | ldr (dr base : Reg) (offset6 : BitVec 6)
  /-- STR (42_load_store.md R168). -/
  | str (sr base : Reg) (offset6 : BitVec 6)
  /-- RTI, opcode 1000 (44_reserved.md R200). -/
  | rti
  /-- NOT (40_alu.md R125). -/
  | not (dr sr : Reg)
  /-- LDI (42_load_store.md R163). -/
  | ldi (dr : Reg) (offset9 : BitVec 9)
  /-- STI (42_load_store.md R167). -/
  | sti (sr : Reg) (offset9 : BitVec 9)
  /-- JMP (41_control.md R143). -/
  | jmp (base : Reg)
  /-- RES, the reserved opcode 1101 (44_reserved.md R201). -/
  | res
  /-- LEA (42_load_store.md R165). -/
  | lea (dr : Reg) (offset9 : BitVec 9)
  /-- TRAP, with its second dispatch on the trap code (43_trap.md R180). -/
  | trap (trapvect8 : BitVec 8)
  /-- GETC, TRAP with code 0x20 (43_trap.md R184). -/
  | getc
  /-- OUT, TRAP with code 0x21 (43_trap.md R185). -/
  | out
  /-- PUTS, TRAP with code 0x22 (43_trap.md R186). -/
  | puts
  /-- IN, TRAP with code 0x23 (43_trap.md R187). -/
  | inChar
  /-- PUTSP, TRAP with code 0x24 (43_trap.md R188). -/
  | putsp
  /-- HALT, TRAP with code 0x25 (43_trap.md R189). -/
  | halt
  /-- TRAP with an undefined code (43_trap.md R190): the arm "any other value" of R180. Its row has no match and mask of
  its own (R93), so the decoder gives such words as `trap` (log 2). -/
  | trapUndefined (trapvect8 : BitVec 8)
  /-- RET, JMP with base 7 (41_control.md R144). -/
  | ret
deriving DecidableEq, Repr

end Sys2Proof
end

