-- ==== Sys2Proof/WellFormed.lean ====
section
/-! DEFINITION. Which terms of `Instr` are instructions as the decoder gives them. Every field value is legal in
every field (30_encoding.md R87, R88), so the only checks are that a word is named by the most specific row of the
opcode table that has a match and mask (R93, log 2). -/

namespace Sys2Proof

/-- The trap code is one of the six defined ones, 0x20 to 0x25 (30_encoding.md R92). -/
def definedTrapCode (v : BitVec 8) : Bool := 0x20 ≤ v.toNat && v.toNat ≤ 0x25

/-- Well-formed: (1) JMP has a base other than R7, which is RET; (2) TRAP has a code outside the six, which have rows
of their own; (3) the row TRAP_UNDEFINED, whose match and mask are null, is not the decoded form of any word. -/
def Instr.wellFormed : Instr → Bool
  | .br _ _ => true
  | .addReg _ _ _ => true
  | .addImm _ _ _ => true
  | .ld _ _ => true
  | .st _ _ => true
  | .jsr _ => true
  | .jsrr _ => true
  | .andReg _ _ _ => true
  | .andImm _ _ _ => true
  | .ldr _ _ _ => true
  | .str _ _ _ => true
  | .rti => true
  | .not _ _ => true
  | .ldi _ _ => true
  | .sti _ _ => true
  | .jmp base => base != .r7
  | .res => true
  | .lea _ _ => true
  | .trap v => !definedTrapCode v
  | .getc => true
  | .out => true
  | .puts => true
  | .inChar => true
  | .putsp => true
  | .halt => true
  | .trapUndefined _ => false
  | .ret => true

end Sys2Proof
end

