-- ==== Sys2Proof/Decode.lean ====
section
/-! DEFINITION. The instruction decoder (30_encoding.md R80 to R93, R96), then the encoder, both written from the
format table R82 and the opcode map R84. The numbers of fourteen opcodes are PRESUMED (G1, log 16); 1000 and 1101 are the
source's. -/

namespace Sys2Proof

/-- The register a 3-bit field names (30_encoding.md R87). -/
def Reg.ofBits (b : BitVec 3) : Reg :=
  match b.getLsbD 2, b.getLsbD 1, b.getLsbD 0 with
  | false, false, false => .r0
  | false, false, true => .r1
  | false, true, false => .r2
  | false, true, true => .r3
  | true, false, false => .r4
  | true, false, true => .r5
  | true, true, false => .r6
  | true, true, true => .r7

/-- The 3-bit field value that names a register (30_encoding.md R87). -/
def Reg.bits : Reg → BitVec 3
  | .r0 => 0#3 | .r1 => 1#3 | .r2 => 2#3 | .r3 => 3#3 | .r4 => 4#3 | .r5 => 5#3 | .r6 => 6#3 | .r7 => 7#3

/-- One bit of a word, `ir[k]` (00_scope.md R8). -/
def bit (ir : Word) (k : Nat) : Bool := ir.getLsbD k

/-- The field `ir[lo + len - 1 : lo]` (00_scope.md R8). -/
def field (ir : Word) (lo len : Nat) : BitVec len := ir.extractLsb' lo len

/-- The register field at `ir[11:9]`: DR, or SR of the stores (30_encoding.md R83). -/
def regHi (ir : Word) : Reg := Reg.ofBits (field ir 9 3)

/-- The register field at `ir[8:6]`: SR1, SR of NOT, base (R83). -/
def regMid (ir : Word) : Reg := Reg.ofBits (field ir 6 3)

/-- The register field at `ir[2:0]`: SR2 (R83). -/
def regLo (ir : Word) : Reg := Reg.ofBits (field ir 0 3)

/-- The decode algorithm of 30_encoding.md R85: nineteen forms, total, no default arm. The four bits matched are
`ir[15]`, `ir[14]`, `ir[13]`, `ir[12]`. -/
def decodePrimary (ir : Word) : Instr :=
  match bit ir 15, bit ir 14, bit ir 13, bit ir 12 with
  | false, false, false, false => .br (field ir 9 3) (field ir 0 9)
  | false, false, false, true =>
    if bit ir 5 then .addImm (regHi ir) (regMid ir) (field ir 0 5) else .addReg (regHi ir) (regMid ir) (regLo ir)
  | false, false, true, false => .ld (regHi ir) (field ir 0 9)
  | false, false, true, true => .st (regHi ir) (field ir 0 9)
  | false, true, false, false => if bit ir 11 then .jsr (field ir 0 11) else .jsrr (regMid ir)
  | false, true, false, true =>
    if bit ir 5 then .andImm (regHi ir) (regMid ir) (field ir 0 5) else .andReg (regHi ir) (regMid ir) (regLo ir)
  | false, true, true, false => .ldr (regHi ir) (regMid ir) (field ir 0 6)
  | false, true, true, true => .str (regHi ir) (regMid ir) (field ir 0 6)
  | true, false, false, false => .rti
  | true, false, false, true => .not (regHi ir) (regMid ir)
  | true, false, true, false => .ldi (regHi ir) (field ir 0 9)
  | true, false, true, true => .sti (regHi ir) (field ir 0 9)
  | true, true, false, false => .jmp (regMid ir)
  | true, true, false, true => .res
  | true, true, true, false => .lea (regHi ir) (field ir 0 9)
  | true, true, true, true => .trap (field ir 0 8)

/-- The trap code map of 30_encoding.md R92: the routine a code selects, or none. -/
def routineOfCode (v : BitVec 8) : Option TrapRoutine :=
  if v = 0x20#8 then some .getc
  else if v = 0x21#8 then some .out
  else if v = 0x22#8 then some .puts
  else if v = 0x23#8 then some .inChar
  else if v = 0x24#8 then some .putsp
  else if v = 0x25#8 then some .halt
  else none

/-- The code that selects a routine (30_encoding.md R92). -/
def TrapRoutine.code : TrapRoutine → BitVec 8
  | .getc => 0x20#8 | .out => 0x21#8 | .puts => 0x22#8 | .inChar => 0x23#8 | .putsp => 0x24#8 | .halt => 0x25#8

/-- The alias row of a routine (30_encoding.md R93). -/
def TrapRoutine.instr : TrapRoutine → Instr
  | .getc => .getc | .out => .out | .puts => .puts | .inChar => .inChar | .putsp => .putsp | .halt => .halt

/-- A JMP by the most specific row: base 7 is RET (41_control.md R144). -/
def nameJmp (base : Reg) : Instr := if base = .r7 then .ret else .jmp base

/-- A TRAP by the most specific row that has a match and mask (30_encoding.md R93). -/
def nameTrap (v : BitVec 8) : Instr :=
  match routineOfCode v with
  | some r => r.instr
  | none => .trap v

/-- The instruction a decoded form is called by: the alias rows with a match and mask refine JMP and TRAP
(30_encoding.md R93, log 2). -/
def Instr.named : Instr → Instr
  | .br mask off => .br mask off
  | .addReg dr sr1 sr2 => .addReg dr sr1 sr2
  | .addImm dr sr1 imm => .addImm dr sr1 imm
  | .ld dr off => .ld dr off
  | .st sr off => .st sr off
  | .jsr off => .jsr off
  | .jsrr base => .jsrr base
  | .andReg dr sr1 sr2 => .andReg dr sr1 sr2
  | .andImm dr sr1 imm => .andImm dr sr1 imm
  | .ldr dr base off => .ldr dr base off
  | .str sr base off => .str sr base off
  | .rti => .rti
  | .not dr sr => .not dr sr
  | .ldi dr off => .ldi dr off
  | .sti sr off => .sti sr off
  | .jmp base => nameJmp base
  | .res => .res
  | .lea dr off => .lea dr off
  | .trap v => nameTrap v
  | .getc => .getc
  | .out => .out
  | .puts => .puts
  | .inChar => .inChar
  | .putsp => .putsp
  | .halt => .halt
  | .trapUndefined v => .trapUndefined v
  | .ret => .ret

/-- The primary form an alias row stands for (30_encoding.md R93, R95); a primary form is its own. -/
def Instr.primary : Instr → Instr
  | .br mask off => .br mask off
  | .addReg dr sr1 sr2 => .addReg dr sr1 sr2
  | .addImm dr sr1 imm => .addImm dr sr1 imm
  | .ld dr off => .ld dr off
  | .st sr off => .st sr off
  | .jsr off => .jsr off
  | .jsrr base => .jsrr base
  | .andReg dr sr1 sr2 => .andReg dr sr1 sr2
  | .andImm dr sr1 imm => .andImm dr sr1 imm
  | .ldr dr base off => .ldr dr base off
  | .str sr base off => .str sr base off
  | .rti => .rti
  | .not dr sr => .not dr sr
  | .ldi dr off => .ldi dr off
  | .sti sr off => .sti sr off
  | .jmp base => .jmp base
  | .res => .res
  | .lea dr off => .lea dr off
  | .trap v => .trap v
  | .getc => .trap TrapRoutine.getc.code
  | .out => .trap TrapRoutine.out.code
  | .puts => .trap TrapRoutine.puts.code
  | .inChar => .trap TrapRoutine.inChar.code
  | .putsp => .trap TrapRoutine.putsp.code
  | .halt => .trap TrapRoutine.halt.code
  | .trapUndefined v => .trap v
  | .ret => .jmp .r7

/-- THE DECODER: R85's form, called by its most specific row. Every word decodes (R85). -/
def decode (ir : Word) : Instr := (decodePrimary ir).named

/-- Why bytes are no instruction. No word is rejected (R85); only a stream too short for one word is. -/
inductive DecodeError where
  /-- Fewer than two bytes are left: there is no whole 16-bit word (R80). -/
  | noWholeWord
deriving DecidableEq, Repr

/-- The word whose bits 15:8 are `hi` and bits 7:0 are `lo`. The machine itself has no byte order (20_memory.md R59); this
is the order of the image file, and the model's memory cells follow it (log 1). -/
def wordOfBytes (hi lo : Byte) : Word := hi ++ lo

/-- Bits 15:8 of a word (20_memory.md R59, 43_trap.md R188: "the high byte"). -/
def highByte (w : Word) : Byte := w.extractLsb' 8 8

/-- Bits 7:0 of a word ("the low byte"). -/
def lowByte (w : Word) : Byte := w.extractLsb' 0 8

/-- Decode the first instruction of a byte stream, total on any bytes: the instruction and the bytes after its word. -/
def decodeBytes : List Byte → Except DecodeError (Instr × List Byte)
  | hi :: lo :: rest => .ok (decode (wordOfBytes hi lo), rest)
  | [_] => .error .noWholeWord
  | [] => .error .noWholeWord

/-- The word that the low `nbits` bits of `w` make, every bit above zero. -/
def tableWord (nbits w : Nat) : Word := BitVec.ofNat 16 (w % 2 ^ nbits)

/-- The host's question: the instruction the decoder reads from a row's bits. An instruction is one 16-bit word (R80), so
more than 16 bits are no instruction. -/
def decodeTableWord (nbits w : Nat) : Option Instr :=
  if nbits ≤ 16 then
    match decodeBytes [highByte (tableWord nbits w), lowByte (tableWord nbits w)] with
    | .ok (i, _) => some i
    | .error _ => none
  else none

/-! ## The encoder -/

/-- Opcode, a 3-bit field at 11:9, a 3-bit field at 8:6, six bits at 5:0: the formats RR, RI, RN, MB, and JB and JR with bits 11:9 fixed
(30_encoding.md R82). -/
def layoutMB (op : BitVec 4) (hi mid : BitVec 3) (low : BitVec 6) : Word := op ++ hi ++ mid ++ low

/-- Opcode, a 3-bit field at 11:9, nine bits at 8:0: the formats BO and MP, and XX with all zero (R82). -/
def layoutMP (op : BitVec 4) (hi : BitVec 3) (low : BitVec 9) : Word := op ++ hi ++ low

/-- Opcode, bit 11, eleven bits at 10:0: the format JL (R82). -/
def layoutJL (op : BitVec 4) (flag : BitVec 1) (low : BitVec 11) : Word := op ++ flag ++ low

/-- Opcode, four unused bits at 11:8, eight bits at 7:0: the format TV (R82). -/
def layoutTV (op unused : BitVec 4) (low : BitVec 8) : Word := op ++ unused ++ low

/-- Bits 5:0 of the register form: bit 5 = 0, bits 4:3 unused, SR2 (R82, RR). -/
def lowRR (sr2 : BitVec 3) : BitVec 6 := 0b000#3 ++ sr2

/-- Bits 5:0 of the immediate form: bit 5 = 1, imm5 (R82, RI). -/
def lowRI (imm5 : BitVec 5) : BitVec 6 := 0b1#1 ++ imm5

/-- The word of an instruction, from the formats of 30_encoding.md R82 and the opcode map R84. Bits no field uses take the
customary values (R88): 0, and 1 in bits 5:0 of NOT (PRESUMED, G7, log 19). -/
def encode : Instr → Word
  | .br mask off => layoutMP 0b0000#4 mask off
  | .addReg dr sr1 sr2 => layoutMB 0b0001#4 dr.bits sr1.bits (lowRR sr2.bits)
  | .addImm dr sr1 imm => layoutMB 0b0001#4 dr.bits sr1.bits (lowRI imm)
  | .ld dr off => layoutMP 0b0010#4 dr.bits off
  | .st sr off => layoutMP 0b0011#4 sr.bits off
  | .jsr off => layoutJL 0b0100#4 0b1#1 off
  | .jsrr base => layoutMB 0b0100#4 0b000#3 base.bits 0b000000#6
  | .andReg dr sr1 sr2 => layoutMB 0b0101#4 dr.bits sr1.bits (lowRR sr2.bits)
  | .andImm dr sr1 imm => layoutMB 0b0101#4 dr.bits sr1.bits (lowRI imm)
  | .ldr dr base off => layoutMB 0b0110#4 dr.bits base.bits off
  | .str sr base off => layoutMB 0b0111#4 sr.bits base.bits off
  | .rti => layoutMP 0b1000#4 0b000#3 0b000000000#9
  | .not dr sr => layoutMB 0b1001#4 dr.bits sr.bits 0b111111#6
  | .ldi dr off => layoutMP 0b1010#4 dr.bits off
  | .sti sr off => layoutMP 0b1011#4 sr.bits off
  | .jmp base => layoutMB 0b1100#4 0b000#3 base.bits 0b000000#6
  | .res => layoutMP 0b1101#4 0b000#3 0b000000000#9
  | .lea dr off => layoutMP 0b1110#4 dr.bits off
  | .trap v => layoutTV 0b1111#4 0b0000#4 v
  | .getc => layoutTV 0b1111#4 0b0000#4 0x20#8
  | .out => layoutTV 0b1111#4 0b0000#4 0x21#8
  | .puts => layoutTV 0b1111#4 0b0000#4 0x22#8
  | .inChar => layoutTV 0b1111#4 0b0000#4 0x23#8
  | .putsp => layoutTV 0b1111#4 0b0000#4 0x24#8
  | .halt => layoutTV 0b1111#4 0b0000#4 0x25#8
  | .trapUndefined v => layoutTV 0b1111#4 0b0000#4 v
  | .ret => layoutMB 0b1100#4 0b000#3 0b111#3 0b000000#6

/-! ## The opcode table as data -/

/-- The match and mask of a row of spec/opcode_table.json (30_encoding.md R93). -/
structure OpcodeRow where
  pattern : Word
  mask : Word
deriving DecidableEq, Repr

/-- `w & mask = match`: the word is the row's (R93). -/
def OpcodeRow.fits (row : OpcodeRow) (w : Word) : Bool := w &&& row.mask == row.pattern

/-- The nineteen primary rows, in the table's order (R93). -/
def primaryRows : List OpcodeRow :=
  [⟨0x0000#16, 0xF000#16⟩, ⟨0x1000#16, 0xF020#16⟩, ⟨0x1020#16, 0xF020#16⟩, ⟨0x2000#16, 0xF000#16⟩, ⟨0x3000#16, 0xF000#16⟩] ++
  [⟨0x4800#16, 0xF800#16⟩, ⟨0x4000#16, 0xF800#16⟩, ⟨0x5000#16, 0xF020#16⟩, ⟨0x5020#16, 0xF020#16⟩, ⟨0x6000#16, 0xF000#16⟩] ++
  [⟨0x7000#16, 0xF000#16⟩, ⟨0x8000#16, 0xF000#16⟩, ⟨0x9000#16, 0xF000#16⟩, ⟨0xA000#16, 0xF000#16⟩, ⟨0xB000#16, 0xF000#16⟩] ++
  [⟨0xC000#16, 0xF000#16⟩, ⟨0xD000#16, 0xF000#16⟩, ⟨0xE000#16, 0xF000#16⟩, ⟨0xF000#16, 0xF000#16⟩]

/-- The row of an instruction. TRAP_UNDEFINED has none of its own and stands under TRAP's (R93). -/
def Instr.row : Instr → OpcodeRow
  | .br _ _ => ⟨0x0000#16, 0xF000#16⟩
  | .addReg _ _ _ => ⟨0x1000#16, 0xF020#16⟩
  | .addImm _ _ _ => ⟨0x1020#16, 0xF020#16⟩
  | .ld _ _ => ⟨0x2000#16, 0xF000#16⟩
  | .st _ _ => ⟨0x3000#16, 0xF000#16⟩
  | .jsr _ => ⟨0x4800#16, 0xF800#16⟩
  | .jsrr _ => ⟨0x4000#16, 0xF800#16⟩
  | .andReg _ _ _ => ⟨0x5000#16, 0xF020#16⟩
  | .andImm _ _ _ => ⟨0x5020#16, 0xF020#16⟩
  | .ldr _ _ _ => ⟨0x6000#16, 0xF000#16⟩
  | .str _ _ _ => ⟨0x7000#16, 0xF000#16⟩
  | .rti => ⟨0x8000#16, 0xF000#16⟩
  | .not _ _ => ⟨0x9000#16, 0xF000#16⟩
  | .ldi _ _ => ⟨0xA000#16, 0xF000#16⟩
  | .sti _ _ => ⟨0xB000#16, 0xF000#16⟩
  | .jmp _ => ⟨0xC000#16, 0xF000#16⟩
  | .res => ⟨0xD000#16, 0xF000#16⟩
  | .lea _ _ => ⟨0xE000#16, 0xF000#16⟩
  | .trap _ => ⟨0xF000#16, 0xF000#16⟩
  | .getc => ⟨0xF020#16, 0xF0FF#16⟩
  | .out => ⟨0xF021#16, 0xF0FF#16⟩
  | .puts => ⟨0xF022#16, 0xF0FF#16⟩
  | .inChar => ⟨0xF023#16, 0xF0FF#16⟩
  | .putsp => ⟨0xF024#16, 0xF0FF#16⟩
  | .halt => ⟨0xF025#16, 0xF0FF#16⟩
  | .trapUndefined _ => ⟨0xF000#16, 0xF000#16⟩
  | .ret => ⟨0xC1C0#16, 0xF1C0#16⟩

/-- The bits of its word that an instruction depends on: all but those 30_encoding.md R88 lists as ignored (log 19). -/
def Instr.usedBits : Instr → Word
  | .br _ _ => 0xFFFF#16
  | .addReg _ _ _ => 0xFFE7#16
  | .addImm _ _ _ => 0xFFFF#16
  | .ld _ _ => 0xFFFF#16
  | .st _ _ => 0xFFFF#16
  | .jsr _ => 0xFFFF#16
  | .jsrr _ => 0xF9C0#16
  | .andReg _ _ _ => 0xFFE7#16
  | .andImm _ _ _ => 0xFFFF#16
  | .ldr _ _ _ => 0xFFFF#16
  | .str _ _ _ => 0xFFFF#16
  | .rti => 0xF000#16
  | .not _ _ => 0xFFC0#16
  | .ldi _ _ => 0xFFFF#16
  | .sti _ _ => 0xFFFF#16
  | .jmp _ => 0xF1C0#16
  | .res => 0xF000#16
  | .lea _ _ => 0xFFFF#16
  | .trap _ => 0xF0FF#16
  | .getc => 0xF0FF#16
  | .out => 0xF0FF#16
  | .puts => 0xF0FF#16
  | .inChar => 0xF0FF#16
  | .putsp => 0xF0FF#16
  | .halt => 0xF0FF#16
  | .trapUndefined _ => 0xF0FF#16
  | .ret => 0xF1C0#16

end Sys2Proof
end

