-- ==== Sys2Proof/Machine/Operands.lean ====
section
/-! DEFINITION. Operands and effective addresses (00_scope.md R11, R12; 30_encoding.md R86; 42_load_store.md R160). -/

namespace Sys2Proof.Machine

/-- `sext_16(f)`: widening a field of `w` bits to 16 by its top bit (00_scope.md R11). -/
def sext {w : Nat} (f : BitVec w) : Word := f.signExtend 16

/-- `zext_16(c)` of a console character (00_scope.md R12; 8 bits by D7, log 20). -/
def zext (c : Byte) : Word := c.setWidth 16

/-- `x[i]` (10_state.md R21). -/
def Regs.get (x : Regs) : Reg → Word
  | .r0 => x.r0
  | .r1 => x.r1
  | .r2 => x.r2
  | .r3 => x.r3
  | .r4 => x.r4
  | .r5 => x.r5
  | .r6 => x.r6
  | .r7 => x.r7

/-- The file after `x[i] <- v`, which "changes nothing else" (10_state.md R21). -/
def Regs.set (x : Regs) (i : Reg) (v : Word) : Regs :=
  match i with
  | .r0 => { x with r0 := v }
  | .r1 => { x with r1 := v }
  | .r2 => { x with r2 := v }
  | .r3 => { x with r3 := v }
  | .r4 => { x with r4 := v }
  | .r5 => { x with r5 := v }
  | .r6 => { x with r6 := v }
  | .r7 => { x with r7 := v }

/-- Read a general register of the state: `x[i]`. -/
def State.reg (s : State) (i : Reg) : Word := s.regs.get i

/-- The PC-relative address `pc + sext_16(offset)`, `pc` already incremented (10_state.md R23, 42_load_store.md R160). -/
def pcRelative {w : Nat} (s : State) (offset : BitVec w) : Word := s.pc + sext offset

/-- The base-plus-offset address `x[base] + sext_16(offset6)` (42_load_store.md R160). -/
def basePlusOffset (s : State) (base : Reg) (offset6 : BitVec 6) : Word := s.reg base + sext offset6

end Sys2Proof.Machine
end

