-- ==== Sys2Proof/Machine/Ops.lean ====
section
/-! DEFINITION. The named operations over registers, memory and the console (00_scope.md R14), the fatal condition and
HALT, each written once and called by every instruction that uses it. -/

namespace Sys2Proof.Machine

/-- What an instruction's meaning answers. -/
abbrev Outcome := Host.Outcome State Fault Refusal

/-! ## Field updates -/

/-- `x[i] <- v`: a plain register write, which leaves the condition code alone (10_state.md R21). -/
def State.setReg (s : State) (i : Reg) (v : Word) : State := { s with regs := s.regs.set i v }

/-- `pc <- v`. -/
def State.setPc (s : State) (v : Word) : State := { s with pc := v }

/-- `cond <- c`. -/
def State.setCond (s : State) (c : Cond) : State := { s with cond := c }

/-- Replace the memory. -/
def State.setMem (s : State) (m : Memory) : State := { s with mem := m }

/-- `run <- r`. -/
def State.setRun (s : State) (r : RunState) : State := { s with run := r }

/-- Replace the console's pending answers: the port has been asked. -/
def State.setAnswers (s : State) (answers : List (Option Byte)) : State :=
  { s with console := { s.console with answers := answers } }

/-- `x[d] <-cc v`: write a destination register and, inseparably, the condition code of the value written
(10_state.md R28). -/
def State.writeDest (s : State) (d : Reg) (v : Word) : State := (s.setReg d v).setCond (setcc v)

/-! ## The store of 65536 words -/

/-- What an unlisted byte reads as: memory is "zero-initialized at startup" (10_state.md R31). -/
def Memory.unlisted : Byte := 0#8

/-- The byte of a cell. -/
def Memory.readByte : Memory → Nat → Byte
  | [], _ => Memory.unlisted
  | (k, b) :: rest, key => if k = key then b else Memory.readByte rest key

/-- Put a byte in a cell, keeping the canonical form. -/
def Memory.writeByte : Memory → Nat → Byte → Memory
  | [], key, v => if v = Memory.unlisted then [] else [(key, v)]
  | (k, b) :: rest, key, v =>
    if key < k then
      if v = Memory.unlisted then (k, b) :: rest else (key, v) :: (k, b) :: rest
    else if key = k then
      if v = Memory.unlisted then rest else (key, v) :: rest
    else (k, b) :: Memory.writeByte rest key v

/-- Canonical from key `lo` on: keys strictly rising, below 131072, no cell that holds what an unlisted one reads as. -/
def Memory.wfFrom : Nat → Memory → Bool
  | _, [] => true
  | lo, (k, b) :: rest => decide (lo ≤ k) && decide (k < 131072) && decide (b ≠ Memory.unlisted) && Memory.wfFrom (k + 1) rest

/-- The canonical form of the memory (log 1). -/
def Memory.wf (m : Memory) : Bool := Memory.wfFrom 0 m

/-- The word `mem[a]`, with no side effect. -/
def Memory.read (m : Memory) (a : Word) : Word :=
  wordOfBytes (Memory.readByte m (2 * a.toNat)) (Memory.readByte m (2 * a.toNat + 1))

/-- The store after `mem[a] <- v`. -/
def Memory.write (m : Memory) (a v : Word) : Memory :=
  Memory.writeByte (Memory.writeByte m (2 * a.toNat) (highByte v)) (2 * a.toNat + 1) (lowByte v)

/-! ## The console ports -/

/-- `ConsoleOut(b)` for each character in order: always accepted, at once (20_memory.md R71; log 26). -/
def State.consoleOut (s : State) (cs : List Byte) : State :=
  { s with console := { s.console with output := s.console.output ++ cs } }

/-- `ConsoleIn()` (20_memory.md R70, R72): the port's next answer, or the step never completes. -/
def consoleIn (s : State) : Except Fault (Option Byte × State) :=
  match s.console.answers with
  | a :: later => .ok (a, s.setAnswers later)
  | [] =>
    match s.console.rest with
    | .repeats a => .ok (a, s)
    | .silent => .error (.consoleNeverAnswers s)

/-! ## The memory primitives -/

/-- `Poll()` (20_memory.md R55): ask the console; on a character set KBSR to 0x8000 (D17, log 21) and KBDR to the character,
on `none` set KBSR to 0 and keep KBDR. -/
def poll (s : State) : Except Fault State :=
  match consoleIn s with
  | .ok (some c, t) => .ok (t.setMem ((t.mem.write t.cfg.kbsrAddr 0x8000#16).write t.cfg.kbdrAddr (zext c)))
  | .ok (none, t) => .ok (t.setMem (t.mem.write t.cfg.kbsrAddr 0x0000#16))
  | .error f => .error f

/-- `MemRead(a, 1)` (20_memory.md R52): a read of `KBSR_ADDR` polls first; the word is the one after the poll. -/
def memRead (a : Word) (s : State) : Except Fault (Word × State) :=
  if a = s.cfg.kbsrAddr then
    match poll s with
    | .ok t => .ok (t.mem.read a, t)
    | .error f => .error f
  else .ok (s.mem.read a, s)

/-- Read a word and go on with it; a read that never completes stops the step. -/
def withRead (a : Word) (s : State) (next : Word → State → Outcome) : Outcome :=
  match memRead a s with
  | .ok (w, t) => next w t
  | .error f => .fault f

/-- `MemWrite(a, 1, v)` (20_memory.md R53): "always stores unconditionally", at every address, with no other effect. -/
def memWrite (a v : Word) (s : State) : State := s.setMem (s.mem.write a v)

/-! ## Fetch -/

/-- The start of a step (10_state.md R33): `ir <- MemRead(pc, 1)`, then `pc <- pc + 1`, wrapping. -/
def fetch (s : State) : Except Fault (Word × State) :=
  match memRead s.pc s with
  | .ok (ir, t) => .ok (ir, t.setPc (t.pc + 1#16))
  | .error f => .error f

/-! ## The two ends of a run -/

/-- TAKING AN EXCEPTION on this hardware: `raise Fatal(k)` (60_exceptions.md R214), `run <- DEAD(k)` and nothing else. Nothing is
saved, no mode changes, control goes nowhere; there is no return from it (R218; log 25). -/
def raiseFatal (k : FatalKind) (s : State) : State := s.setRun (.dead k)

/-- `halt` (43_trap.md R193): `run <- HALTED`, exit code 0. -/
def haltRun (s : State) : State := s.setRun .halted

/-- The exit code of a fatal kind (60_exceptions.md R211). -/
def FatalKind.exitCode : FatalKind → Nat
  | .reservedOpcode => 10
  | .undefinedOpcode => 20
  | .undefinedTrap => 21

/-- The exit code shown with a run state (10_state.md R34): none while RUNNING. -/
def RunState.exitCode : RunState → Option Nat
  | .running => none
  | .halted => some 0
  | .dead k => some k.exitCode

/-! ## What the trap routines share -/

/-- The write of R7 that every TRAP makes first when `TRAP_LINKS_R7` is true (43_trap.md R182), with no condition-code update; when it is
false R7 keeps its value. -/
def linkTrap (s : State) : State := s.setReg .r7 (if s.cfg.trapLinksR7 then s.pc else s.reg .r7)

/-- The console read of GETC and IN (43_trap.md R184, R187): one character, or the step does not complete. -/
def readChar (s : State) (next : Byte → State → Outcome) : Outcome :=
  match consoleIn s with
  | .ok (some c, t) => next c t
  | .ok (none, t) => .fault (.consoleAnsweredNone t)
  | .error f => .fault f

/-- One pass of the string loop of PUTS and PUTSP over at most `n` words from address `a` (43_trap.md R186, R188): read a word, stop
at the zero word, send `chars` of it, go to the next address, wrapping. `later` goes on when no zero word was met. -/
def printPass (chars : Word → List Byte) (later : Word → State → Outcome) : Nat → Word → State → Outcome
  | 0, a, s => later a s
  | n + 1, a, s =>
    match memRead a s with
    | .ok (w, t) => if w = 0#16 then .next t else printPass chars later n (a + 1#16) (t.consoleOut (chars w))
    | .error f => .fault f

/-- The string loop over at most `p` passes, each of all 65536 addresses. -/
def printPasses (chars : Word → List Byte) : Nat → Word → State → Outcome
  | 0, _, s => .fault (.stringNeverEnds s)
  | p + 1, a, s => printPass chars (printPasses chars p) 65536 a s

/-- How many passes decide whether a string ends: every pass polls once (its words take in `KBSR_ADDR`), so after one pass for each listed
answer the port repeats itself, from the next poll on memory no longer changes, and one more pass reads every word (log 12). -/
def passesToDecide (s : State) : Nat := s.console.answers.length + 2

/-- The loop of PUTS and PUTSP from the address in R0, which is a local copy: R0 is not changed (43_trap.md R186, R188). -/
def printString (chars : Word → List Byte) (s : State) : Outcome :=
  printPasses chars (passesToDecide s) (s.reg .r0) s

/-- What PUTS sends for a word: its low 8 bits (43_trap.md R186). -/
def putsChars (w : Word) : List Byte := [lowByte w]

/-- What PUTSP sends for a word: the low byte always, then the high byte if it is not zero (43_trap.md R188). -/
def putspChars (w : Word) : List Byte :=
  if highByte w = 0#8 then [lowByte w] else [lowByte w, highByte w]

end Sys2Proof.Machine
end

