-- ==== Sys2Proof/Machine/Alu.lean ====
section
/-! DEFINITION. ADD, AND, NOT (40_alu.md). None touches `pc` or memory, none can stop. -/

namespace Sys2Proof.Machine

/-- ADD, register form: `x[DR] <-cc x[SR1] + x[SR2]` (R121). -/
def execAddReg (dr sr1 sr2 : Reg) (s : State) : Outcome := .next (s.writeDest dr (s.reg sr1 + s.reg sr2))

/-- ADD, immediate form: `x[DR] <-cc x[SR1] + sext_16(imm5)` (R122). -/
def execAddImm (dr sr1 : Reg) (imm5 : BitVec 5) (s : State) : Outcome := .next (s.writeDest dr (s.reg sr1 + sext imm5))

/-- AND, register form: `x[DR] <-cc x[SR1] & x[SR2]` (R123). -/
def execAndReg (dr sr1 sr2 : Reg) (s : State) : Outcome := .next (s.writeDest dr (s.reg sr1 &&& s.reg sr2))

/-- AND, immediate form: `x[DR] <-cc x[SR1] & sext_16(imm5)` (R124). -/
def execAndImm (dr sr1 : Reg) (imm5 : BitVec 5) (s : State) : Outcome := .next (s.writeDest dr (s.reg sr1 &&& sext imm5))

/-- NOT: `x[DR] <-cc ~x[SR]` (R125). -/
def execNot (dr sr : Reg) (s : State) : Outcome := .next (s.writeDest dr (~~~(s.reg sr)))

end Sys2Proof.Machine
end

