-- ==== Sys2Proof/Machine/Control.lean ====
section
/-! DEFINITION. BR, JMP, RET, JSR, JSRR (41_control.md). `s.pc` is the incremented program counter. None touches memory or `cond`,
none can stop (R140). -/

namespace Sys2Proof.Machine

/-- BR: `if (mask & cond) != 0 then pc <- pc + sext_16(offset9)` (R141). -/
def execBr (mask : BitVec 3) (offset9 : BitVec 9) (s : State) : Outcome :=
  .next (s.setPc (if branchTaken mask s.cond then pcRelative s offset9 else s.pc))

/-- JMP: `pc <- x[base]` (R143). -/
def execJmp (base : Reg) (s : State) : Outcome := .next (s.setPc (s.reg base))

/-- RET, "JMP with base 7 ... with no special case in the hardware" (R144). -/
def execRet (s : State) : Outcome := .next (s.setPc (s.reg .r7))

/-- JSR: `x[7] <- pc`, then `pc <- pc + sext_16(offset11)` (R145). -/
def execJsr (offset11 : BitVec 11) (s : State) : Outcome :=
  .next ((s.setReg .r7 s.pc).setPc (pcRelative s offset11))

/-- JSRR: `x[7] <- pc`, then `pc <- x[base]`, "read after the write of R7" (R147, the spec's own choice D10, log 18). -/
def execJsrr (base : Reg) (s : State) : Outcome :=
  .next ((s.setReg .r7 s.pc).setPc ((s.setReg .r7 s.pc).reg base))

end Sys2Proof.Machine
end

