-- ==== Sys2Proof/Machine/DataMove.lean ====
section
/-! DEFINITION. LD, LDI, LDR, LEA, ST, STI, STR (42_load_store.md). `s.pc` is the incremented program counter; none writes it. A read of
`KBSR_ADDR` polls (R161), so a load or an STI can wait for the console. -/

namespace Sys2Proof.Machine

/-- LD: `x[DR] <-cc MemRead(pc + sext_16(offset9), 1)` (R162). -/
def execLd (dr : Reg) (offset9 : BitVec 9) (s : State) : Outcome :=
  withRead (pcRelative s offset9) s fun w t => .next (t.writeDest dr w)

/-- LDI: the pointer, then the data, each a full `MemRead` (R163). -/
def execLdi (dr : Reg) (offset9 : BitVec 9) (s : State) : Outcome :=
  withRead (pcRelative s offset9) s fun p t => withRead p t fun w u => .next (u.writeDest dr w)

/-- LDR: `x[DR] <-cc MemRead(x[base] + sext_16(offset6), 1)` (R164). -/
def execLdr (dr base : Reg) (offset6 : BitVec 6) (s : State) : Outcome :=
  withRead (basePlusOffset s base offset6) s fun w t => .next (t.writeDest dr w)

/-- LEA: `x[DR] <-cc pc + sext_16(offset9)`; reads no memory (R165). -/
def execLea (dr : Reg) (offset9 : BitVec 9) (s : State) : Outcome := .next (s.writeDest dr (pcRelative s offset9))

/-- ST: `MemWrite(pc + sext_16(offset9), 1, x[SR])` (R166). -/
def execSt (sr : Reg) (offset9 : BitVec 9) (s : State) : Outcome :=
  .next (memWrite (pcRelative s offset9) (s.reg sr) s)

/-- STI: one read, the pointer, then one write, which never polls (R167). -/
def execSti (sr : Reg) (offset9 : BitVec 9) (s : State) : Outcome :=
  withRead (pcRelative s offset9) s fun p t => .next (memWrite p (t.reg sr) t)

/-- STR: `MemWrite(x[base] + sext_16(offset6), 1, x[SR])` (R168). -/
def execStr (sr base : Reg) (offset6 : BitVec 6) (s : State) : Outcome :=
  .next (memWrite (basePlusOffset s base offset6) (s.reg sr) s)

end Sys2Proof.Machine
end

