-- ==== Sys2Proof/Machine/Reserved.lean ====
section
/-! DEFINITION. RTI and RES, the two unimplemented opcodes: each raises the fatal condition ReservedOpcode, which is a next state
with `run = dead reservedOpcode` and exit code 10 (44_reserved.md R200, R201). -/

namespace Sys2Proof.Machine

/-- RTI: `raise Fatal(ReservedOpcode)`; it returns from nothing (R200). -/
def execRti (s : State) : Outcome := .next (raiseFatal .reservedOpcode s)

/-- RES, the reserved opcode: `raise Fatal(ReservedOpcode)` (R201). -/
def execRes (s : State) : Outcome := .next (raiseFatal .reservedOpcode s)

end Sys2Proof.Machine
end

