-- ==== Sys2Proof/Machine/Trap.lean ====
section
/-! DEFINITION. TRAP and its six console routines, carried out by the hardware itself inside the TRAP's step (43_trap.md R180 to R190).
Every TRAP links R7 first when `TRAP_LINKS_R7` says so (R182); the routines below run after that. -/

namespace Sys2Proof.Machine

/-- GETC's routine: one character into R0, `cond` untouched (R184). -/
def getcRoutine (s : State) : Outcome := readChar s fun c t => .next (t.setReg .r0 (zext c))

/-- OUT's routine: `ConsoleOut(x[0][7:0])` (R185). -/
def outRoutine (s : State) : Outcome := .next (s.consoleOut [lowByte (s.reg .r0)])

/-- PUTS's routine: the string of one character a word (R186). -/
def putsRoutine (s : State) : Outcome := printString putsChars s

/-- IN's routine: the prompt, one character, its echo, R0 (R187). -/
def inRoutine (s : State) : Outcome :=
  readChar (s.consoleOut s.cfg.inPrompt) fun c t => .next ((t.consoleOut [c]).setReg .r0 (zext c))

/-- PUTSP's routine: the string of two packed characters a word (R188). -/
def putspRoutine (s : State) : Outcome := printString putspChars s

/-- HALT's routine: the notice, then `halt` (R189, R193). -/
def haltRoutine (s : State) : Outcome := .next (haltRun (s.consoleOut s.cfg.haltNotice))

/-- "Any other value: fatal, terminate" (R190): `raise Fatal(UndefinedTrap)`, exit code 21. -/
def undefinedTrapRoutine (s : State) : Outcome := .next (raiseFatal .undefinedTrap s)

/-- The second dispatch of TRAP (R180, 30_encoding.md R92). -/
def trapDispatch (v : BitVec 8) (s : State) : Outcome :=
  match routineOfCode v with
  | some .getc => getcRoutine s
  | some .out => outRoutine s
  | some .puts => putsRoutine s
  | some .inChar => inRoutine s
  | some .putsp => putspRoutine s
  | some .halt => haltRoutine s
  | none => undefinedTrapRoutine s

/-- TRAP: link, then dispatch on the code (R180). -/
def execTrap (v : BitVec 8) (s : State) : Outcome := trapDispatch v (linkTrap s)

/-- GETC, TRAP x20 (R184). -/
def execGetc (s : State) : Outcome := getcRoutine (linkTrap s)

/-- OUT, TRAP x21 (R185). -/
def execOut (s : State) : Outcome := outRoutine (linkTrap s)

/-- PUTS, TRAP x22 (R186). -/
def execPuts (s : State) : Outcome := putsRoutine (linkTrap s)

/-- IN, TRAP x23 (R187). -/
def execIn (s : State) : Outcome := inRoutine (linkTrap s)

/-- PUTSP, TRAP x24 (R188). -/
def execPutsp (s : State) : Outcome := putspRoutine (linkTrap s)

/-- HALT, TRAP x25 (R189). -/
def execHalt (s : State) : Outcome := haltRoutine (linkTrap s)

/-- TRAP with an undefined code, whatever the code (R190). -/
def execTrapUndefined (_v : BitVec 8) (s : State) : Outcome := undefinedTrapRoutine (linkTrap s)

end Sys2Proof.Machine
end

