-- ==== Sys2Proof/Machine/Dispatch.lean ====
section
/-! DEFINITION. One arm per constructor of Instr: the handler the decoder selects (10_state.md R33). The state given to exec is the
one after the fetch, with `pc` already incremented. -/

namespace Sys2Proof.Machine

def exec (i : Instr) (s : State) : Host.Outcome State Fault Refusal :=
  match i with
  | .br mask offset9 => Sys2Proof.Machine.execBr mask offset9 s
  | .addReg dr sr1 sr2 => Sys2Proof.Machine.execAddReg dr sr1 sr2 s
  | .addImm dr sr1 imm5 => Sys2Proof.Machine.execAddImm dr sr1 imm5 s
  | .ld dr offset9 => Sys2Proof.Machine.execLd dr offset9 s
  | .st sr offset9 => Sys2Proof.Machine.execSt sr offset9 s
  | .jsr offset11 => Sys2Proof.Machine.execJsr offset11 s
  | .jsrr base => Sys2Proof.Machine.execJsrr base s
  | .andReg dr sr1 sr2 => Sys2Proof.Machine.execAndReg dr sr1 sr2 s
  | .andImm dr sr1 imm5 => Sys2Proof.Machine.execAndImm dr sr1 imm5 s
  | .ldr dr base offset6 => Sys2Proof.Machine.execLdr dr base offset6 s
  | .str sr base offset6 => Sys2Proof.Machine.execStr sr base offset6 s
  | .rti => Sys2Proof.Machine.execRti s
  | .not dr sr => Sys2Proof.Machine.execNot dr sr s
  | .ldi dr offset9 => Sys2Proof.Machine.execLdi dr offset9 s
  | .sti sr offset9 => Sys2Proof.Machine.execSti sr offset9 s
  | .jmp base => Sys2Proof.Machine.execJmp base s
  | .res => Sys2Proof.Machine.execRes s
  | .lea dr offset9 => Sys2Proof.Machine.execLea dr offset9 s
  | .trap trapvect8 => Sys2Proof.Machine.execTrap trapvect8 s
  | .getc => Sys2Proof.Machine.execGetc s
  | .out => Sys2Proof.Machine.execOut s
  | .puts => Sys2Proof.Machine.execPuts s
  | .inChar => Sys2Proof.Machine.execIn s
  | .putsp => Sys2Proof.Machine.execPutsp s
  | .halt => Sys2Proof.Machine.execHalt s
  | .trapUndefined trapvect8 => Sys2Proof.Machine.execTrapUndefined trapvect8 s
  | .ret => Sys2Proof.Machine.execRet s

end Sys2Proof.Machine
end

