-- ==== Sys2Proof/Machine/Step.lean ====
section
/-! DEFINITION. The step of the sequencer (10_state.md R33), and the host's way of placing an instruction. -/

namespace Sys2Proof.Machine

/-- One step (10_state.md R33): while RUNNING, fetch (which polls when `pc = KBSR_ADDR`), increment `pc`, decode, execute. When HALTED or DEAD
"nothing is fetched and no state changes until reset": the state stays as it is (log 13). -/
def step (s : State) : Host.Outcome State Fault Refusal :=
  match s.run with
  | .running =>
    match fetch s with
    | .ok (ir, t) => exec (decode ir) t
    | .error f => .fault f
  | .halted => .next s
  | .dead _ => .next s

/-- `s` with the instruction of a table row's bits where the next step fetches, and the core RUNNING. A fetch from `KBSR_ADDR` runs the
status word of a poll, never a stored word (20_memory.md R57, R58), so there the instruction is placed one word further and `pc` with it (log 14). -/
def State.withFetchWord (s : State) (nbits w : Nat) : State :=
  let spot : Word := if s.pc = s.cfg.kbsrAddr then s.pc + 1#16 else s.pc
  { s with pc := spot, mem := s.mem.write spot (tableWord nbits w), run := .running }

end Sys2Proof.Machine
end

