-- ==== Sys2Proof/Machine/Boot.lean ====
section
/-! DEFINITION. What the host does to the core (70_reset_and_hazards.md): the reset input, the image loader's contract, the boot sequence,
the console's answers and the status outputs (R240 to R247, R253, R254). No step of the core calls any of it. -/

namespace Sys2Proof.Machine

/-- The reset input (R240): every piece of the core's state at its reset value; the console and the parameters stay (10_state.md R38, log 30). -/
def hostReset (s : State) : State := State.resetWith s.cfg s.console

/-- The whole words of a byte sequence, big-endian; an odd last byte is ignored (R244, R246 (a); log 27). -/
def imageWords : List Byte → List Word
  | hi :: lo :: later => wordOfBytes hi lo :: imageWords later
  | [_] => []
  | [] => []

/-- Each word has the effect of one `MemWrite`, at consecutive addresses (R242 (3), R244). -/
def loadWords : Word → List Word → State → State
  | _, [], s => s
  | a, w :: later, s => loadWords (a + 1#16) later (memWrite a w s)

/-- Load one image (R244): the first word is the load address, the rest are stored from there. Fewer than two bytes are a load failure (R246 (c),
R247); an image that runs past 0xFFFF is refused (R246 (d)). -/
def loadImage (bytes : List Byte) (s : State) : Outcome :=
  match bytes with
  | hi :: lo :: later =>
    if (wordOfBytes hi lo).toNat + (imageWords later).length ≤ 65536 then
      .next (loadWords (wordOfBytes hi lo) (imageWords later) s)
    else .refused .imageTooLong
  | [_] => .fault .loadFailure
  | [] => .fault .loadFailure

/-- Load several images in the order given into the same memory: "last write wins" (R245). -/
def loadImages : List (List Byte) → State → Outcome
  | [], s => .next s
  | image :: later, s =>
    match loadImage image s with
    | .next t => loadImages later t
    | .fault f => .fault f
    | .refused r => .refused r

/-- The boot sequence (R242): reset, load the images, then RUNNING with the first fetch from `PC_RESET`. -/
def boot (images : List (List Byte)) (s : State) : Outcome :=
  match loadImages images (hostReset s) with
  | .next t => .next (t.setRun .running)
  | .fault f => .fault f
  | .refused r => .refused r

/-- The exit code of a failed load: 1 (R247, 60_exceptions.md R213). -/
def loadFailureExitCode : Nat := 1

/-- The host answers the coming calls of `ConsoleIn()` (R254): the answers are queued behind those not yet asked for. -/
def hostAnswer (answers : List (Option Byte)) (s : State) : State := s.setAnswers (s.console.answers ++ answers)

/-- The status outputs (10_state.md R34): `run` and the exit code. -/
def statusOutputs (s : State) : RunState × Option Nat := (s.run, s.run.exitCode)

end Sys2Proof.Machine
end

