-- ==== Sys2Proof/Safety.lean ====
section
/-! DEFINITION. What counts as a well-formed state, and the terms the statements are made of: what a store, a register, the console and each kind
of instruction may change. -/

namespace Sys2Proof

/-! ## Which instruction may do what -/

/-- The destination register (00_scope.md R16): "the register named by the DR field of ADD, AND, NOT, LD, LDI, LDR or LEA, and nothing else". -/
def Instr.dest : Instr → Option Reg
  | .addReg dr _ _ => some dr
  | .addImm dr _ _ => some dr
  | .andReg dr _ _ => some dr
  | .andImm dr _ _ => some dr
  | .not dr _ => some dr
  | .ld dr _ => some dr
  | .ldi dr _ => some dr
  | .ldr dr _ _ => some dr
  | .lea dr _ => some dr
  | .br _ _ => none
  | .st _ _ => none
  | .jsr _ => none
  | .jsrr _ => none
  | .str _ _ _ => none
  | .rti => none
  | .sti _ _ => none
  | .jmp _ => none
  | .res => none
  | .trap _ => none
  | .getc => none
  | .out => none
  | .puts => none
  | .inChar => none
  | .putsp => none
  | .halt => none
  | .trapUndefined _ => none
  | .ret => none

/-- The control transfers: BR, JMP, RET, JSR, JSRR (41_control.md). -/
def Instr.isControl : Instr → Bool
  | .br _ _ => true
  | .jmp _ => true
  | .ret => true
  | .jsr _ => true
  | .jsrr _ => true
  | _ => false

/-- The stores: ST, STI, STR (42_load_store.md R161). -/
def Instr.isStore : Instr → Bool
  | .st _ _ => true
  | .sti _ _ => true
  | .str _ _ _ => true
  | _ => false

/-- The trap routine an instruction runs: TRAP by its code, and the six by name (30_encoding.md R92). -/
def Instr.routine : Instr → Option TrapRoutine
  | .trap v => routineOfCode v
  | .getc => some .getc
  | .out => some .out
  | .puts => some .puts
  | .inChar => some .inChar
  | .putsp => some .putsp
  | .halt => some .halt
  | _ => none

/-- A TRAP, by whatever row: these link R7 when `TRAP_LINKS_R7` is true (43_trap.md R182). -/
def Instr.isTrap : Instr → Bool
  | .trap _ => true
  | .getc => true
  | .out => true
  | .puts => true
  | .inChar => true
  | .putsp => true
  | .halt => true
  | .trapUndefined _ => true
  | _ => false

/-- The instructions that read memory through `MemRead` and so can poll: LD, LDI, LDR, STI, PUTS, PUTSP (20_memory.md R58). -/
def Instr.readsMemory : Instr → Bool
  | .ld _ _ => true
  | .ldi _ _ => true
  | .ldr _ _ _ => true
  | .sti _ _ => true
  | i => i.routine == some .puts || i.routine == some .putsp

/-- GETC and IN, which call `ConsoleIn()` themselves (20_memory.md R70). -/
def Instr.readsConsole (i : Instr) : Bool := i.routine == some .getc || i.routine == some .inChar

/-- OUT, PUTS, IN, PUTSP and HALT, the only ways a character reaches the console output (20_memory.md R73). -/
def Instr.prints (i : Instr) : Bool :=
  i.routine == some .out || i.routine == some .puts || i.routine == some .inChar || i.routine == some .putsp || i.routine == some .halt

/-- The registers an instruction may write, for a given value of `TRAP_LINKS_R7` (10_state.md R22). -/
def Instr.regsWritten (links : Bool) (i : Instr) : List Reg :=
  match i with
  | .jsr _ => [.r7]
  | .jsrr _ => [.r7]
  | _ => i.dest.toList ++ (if i.readsConsole then [.r0] else []) ++ (if i.isTrap && links then [.r7] else [])

end Sys2Proof

namespace Sys2Proof.Machine

/-! ## Invariants and the end of a run -/

/-- The invariant of the model: the memory is in its canonical form, the two device addresses are distinct (00_scope.md R7), and the
core is not dead of the kind no rule raises (60_exceptions.md R226). -/
def State.Inv (s : State) : Prop :=
  Memory.wf s.mem = true ∧ s.cfg.wf = true ∧ s.run ≠ .dead .undefinedOpcode

/-- A run is over when `run` is HALTED or DEAD (70_reset_and_hazards.md R253). -/
def State.isOver (s : State) : Prop := s.run ≠ .running

/-- A safe run ends in normal termination only: HALTED, exit code 0 (70_reset_and_hazards.md R253). -/
def State.endedNormally (s : State) : Prop := s.run = .halted

/-! ## The console's next answer -/

/-- What the port would answer to a `ConsoleIn()` now, or none if it never answers (20_memory.md R72). -/
def State.nextAnswer (s : State) : Option (Option Byte) :=
  match s.console.answers, s.console.rest with
  | a :: _, _ => some a
  | [], .repeats a => some a
  | [], .silent => none

/-- The status word a poll leaves (20_memory.md R55): 0x8000 after a character (D17, log 21), 0 after `none`. -/
def statusWord : Option Byte → Word
  | some _ => 0x8000#16
  | none => 0x0000#16

/-- The addresses an instruction reads with `MemRead`, fetch apart (20_memory.md R58 (b), (c)): LD, LDR, both reads of LDI, the pointer read of
STI. The second read of LDI is of the pointer as it stands, which is right when the first read does not poll. PUTS and PUTSP are not covered. -/
def dataReads (i : Instr) (s : State) : List Word :=
  match i with
  | .ld _ off => [pcRelative s off]
  | .ldi _ off => [pcRelative s off, s.mem.read (pcRelative s off)]
  | .ldr _ base off => [basePlusOffset s base off]
  | .sti _ off => [pcRelative s off]
  | _ => []

/-! ## What an instruction changes and what it leaves -/

/-- Every byte of the store outside the words at the addresses `as` reads in `t` as in `s`. -/
def SameBytesOutside (s t : State) (as : List Word) : Prop :=
  ∀ key : Nat, (∀ a ∈ as, key ≠ 2 * a.toNat ∧ key ≠ 2 * a.toNat + 1) →
    Memory.readByte t.mem key = Memory.readByte s.mem key

/-- Every register but those listed is in `t` as in `s`. -/
def SameRegsExcept (s t : State) (rs : List Reg) : Prop := ∀ j : Reg, j ∉ rs → t.reg j = s.reg j

/-- The whole effect of a destination-register write: register `dr` holds `v`, `cond` is `setcc v`, and nothing else has changed. -/
structure DestResult (s t : State) (dr : Reg) (v : Word) : Prop where
  value : t.reg dr = v
  flag : t.cond = setcc v
  regs : SameRegsExcept s t [dr]
  pc : t.pc = s.pc
  bytes : SameBytesOutside s t []
  run : t.run = s.run
  console : t.console = s.console
  cfg : t.cfg = s.cfg

/-- The whole effect of a store of `v` at `a`. -/
structure StoreResult (s t : State) (a v : Word) : Prop where
  value : t.mem.read a = v
  bytes : SameBytesOutside s t [a]
  regs : SameRegsExcept s t []
  cond : t.cond = s.cond
  pc : t.pc = s.pc
  run : t.run = s.run
  console : t.console = s.console
  cfg : t.cfg = s.cfg

/-- The whole effect of a control transfer to `target` that may write the registers `rs`. -/
structure ControlResult (s t : State) (target : Word) (rs : List Reg) : Prop where
  pc : t.pc = target
  regs : SameRegsExcept s t rs
  cond : t.cond = s.cond
  bytes : SameBytesOutside s t []
  run : t.run = s.run
  console : t.console = s.console
  cfg : t.cfg = s.cfg

/-- The whole effect of a fatal condition: `run`, and nothing else (60_exceptions.md R214). -/
structure FatalResult (s t : State) (k : FatalKind) : Prop where
  run : t.run = .dead k
  regs : SameRegsExcept s t []
  cond : t.cond = s.cond
  pc : t.pc = s.pc
  bytes : SameBytesOutside s t []
  console : t.console = s.console
  cfg : t.cfg = s.cfg

/-- What a TRAP changes: R0 holds `r0`, R7 is linked as `TRAP_LINKS_R7` says, the characters `sent` are added to the output, `answers` is what is left
of the console's answers, `run` is as given; nothing else has changed (43_trap.md R182, R183). -/
structure TrapResult (s t : State) (r0 : Word) (sent : List Byte) (answers : List (Option Byte)) (run : RunState) : Prop where
  r0 : t.reg .r0 = r0
  r7 : t.reg .r7 = if s.cfg.trapLinksR7 then s.pc else s.reg .r7
  regs : SameRegsExcept s t [.r0, .r7]
  cond : t.cond = s.cond
  pc : t.pc = s.pc
  bytes : SameBytesOutside s t []
  output : t.console.output = s.console.output ++ sent
  answers : t.console.answers = answers
  rest : t.console.rest = s.console.rest
  run : t.run = run
  cfg : t.cfg = s.cfg

/-- What one answered poll does to the store and the console (20_memory.md R55): the status word, the character if one came, no other byte, one answer
taken. -/
structure Polled (s t : State) (answer : Option Byte) : Prop where
  status : t.mem.read s.cfg.kbsrAddr = statusWord answer
  data : ∀ c, answer = some c → t.mem.read s.cfg.kbdrAddr = zext c
  keptData : answer = none → SameBytesOutside s t [s.cfg.kbsrAddr]
  bytes : SameBytesOutside s t [s.cfg.kbsrAddr, s.cfg.kbdrAddr]
  answers : t.console.answers = s.console.answers.tail
  rest : t.console.rest = s.console.rest
  output : t.console.output = s.console.output

/-! ## The string loop as the spec writes it -/

/-- The loop of 43_trap.md R186 and R188 from address `a` comes to its end in `t`: a word is read through `MemRead`; the zero word ends the loop and sends nothing;
any other word sends its characters and the loop goes on at the next address, wrapping. No bound is put on the number of words. -/
inductive StringEnds (chars : Word → List Byte) : Word → State → State → Prop where
  | stop {a : Word} {s t : State} : memRead a s = .ok (0x0000#16, t) → StringEnds chars a s t
  | more {a w : Word} {s u t : State} : memRead a s = .ok (w, u) → w ≠ 0x0000#16 →
      StringEnds chars (a + 1#16) (u.consoleOut (chars w)) t → StringEnds chars a s t

/-- The loop from address `a` comes to a poll that is never answered, in the state `t` (20_memory.md R72). -/
inductive StringWaits (chars : Word → List Byte) : Word → State → State → Prop where
  | wait {a : Word} {s : State} : memRead a s = .error (.consoleNeverAnswers s) → StringWaits chars a s s
  | more {a w : Word} {s u t : State} : memRead a s = .ok (w, u) → w ≠ 0x0000#16 →
      StringWaits chars (a + 1#16) (u.consoleOut (chars w)) t → StringWaits chars a s t

/-! ## Images -/

/-- The word an image holds for an address, if it holds one (70_reset_and_hazards.md R244). -/
def imageCell (bytes : List Byte) (a : Word) : Option Word :=
  match bytes with
  | hi :: lo :: later => (imageWords later)[(a - wordOfBytes hi lo).toNat]?
  | _ => none

end Sys2Proof.Machine
end

