-- ==== Sys2Proof/Certificates/Slice0/Obligations.lean ====
section
/-! DEFINITION. The statements for the provers, from the numbered rules of spec/. `exec i s` is the effect of instruction `i` in the state after the fetch, so
`s.pc` is the incremented program counter (10_state.md R23). A statement about every state holds for every value of the parameters (`s.cfg`) and for every
console. Where a store is read back, the premise is the canonical form of the memory, which StepKeepsInvariant and ResetSatisfiesInvariant are about. -/

open Sys2Proof Sys2Proof.Machine

/-! ## Values -/

/-- R27: the three cases of `setcc`. -/
def Obligations.SetccHasThreeCases : Prop :=
  ∀ v : Word,
    (v = 0x0000#16 → setcc v = .zero) ∧
    (v.getLsbD 15 = true → setcc v = .negative) ∧
    (v ≠ 0x0000#16 → v.getLsbD 15 = false → setcc v = .positive)

/-- R11: the low bits are the field's, all higher bits its top bit; and as arithmetic. -/
def Obligations.SextCopiesTopBitUpward : Prop :=
  ∀ (w : Nat) (f : BitVec w), 1 ≤ w → w ≤ 16 →
    (∀ i, i < 16 → (sext f).getLsbD i = if i < w then f.getLsbD i else f.getLsbD (w - 1)) ∧
    (f.toNat < 2 ^ (w - 1) → (sext f).toNat = f.toNat) ∧
    (2 ^ (w - 1) ≤ f.toNat → (sext f).toNat = f.toNat + 65536 - 2 ^ w)

/-! ## The condition code -/

/-- R28, R29: `cond` after an instruction with a destination register is `setcc` of the 16-bit value written there; no other instruction writes it; and only BR
reads it: any other instruction does the same whatever `cond` holds. -/
def Obligations.CondWrittenByDestWritesAndReadByBrOnly : Prop :=
  ∀ (i : Instr) (s t : State), exec i s = .next t →
    (∀ d, i.dest = some d → t.cond = setcc (t.reg d)) ∧
    (i.dest = none → t.cond = s.cond) ∧
    ((∀ mask off, i ≠ .br mask off) → ∀ c : Cond, ∃ u, exec i (s.setCond c) = .next u ∧
      u.regs = t.regs ∧ u.pc = t.pc ∧ u.mem = t.mem ∧ u.run = t.run ∧ u.console = t.console ∧ u.cfg = t.cfg ∧
      (i.dest = none → u.cond = c) ∧ (i.dest ≠ none → u.cond = t.cond))

/-! ## The ALU -/

/-- R121, R122: both forms of ADD complete in every state; the sum wraps modulo 65536, `cond` comes from the wrapped sum, nothing else changes. -/
def Obligations.AddWritesWrappedSumAndCond : Prop :=
  ∀ (s : State) (dr sr1 sr2 : Reg) (imm5 : BitVec 5),
    (∃ t v, exec (.addReg dr sr1 sr2) s = .next t ∧ v.toNat = ((s.reg sr1).toNat + (s.reg sr2).toNat) % 65536 ∧ DestResult s t dr v) ∧
    (∃ t v, exec (.addImm dr sr1 imm5) s = .next t ∧ v.toNat = ((s.reg sr1).toNat + (sext imm5).toNat) % 65536 ∧ DestResult s t dr v)

/-- R123, R124: both forms of AND complete in every state; the result is the bitwise AND, the immediate sign-extended first; nothing else changes. -/
def Obligations.AndWritesBitwiseAndAndCond : Prop :=
  ∀ (s : State) (dr sr1 sr2 : Reg) (imm5 : BitVec 5),
    (∃ t v, exec (.andReg dr sr1 sr2) s = .next t ∧ (∀ k, v.getLsbD k = ((s.reg sr1).getLsbD k && (s.reg sr2).getLsbD k)) ∧ DestResult s t dr v) ∧
    (∃ t v, exec (.andImm dr sr1 imm5) s = .next t ∧ (∀ k, v.getLsbD k = ((s.reg sr1).getLsbD k && (sext imm5).getLsbD k)) ∧ DestResult s t dr v)

/-- R125, R13: NOT completes in every state and writes 65535 minus the source; nothing else changes. -/
def Obligations.NotWritesComplementAndCond : Prop :=
  ∀ (s : State) (dr sr : Reg), ∃ t v, exec (.not dr sr) s = .next t ∧ v.toNat = 65535 - (s.reg sr).toNat ∧ DestResult s t dr v

/-! ## Loads and stores -/

/-- R165: LEA completes in every state, writes the address and `cond` from it, reads no memory and never polls. -/
def Obligations.LeaWritesAddressAndCond : Prop :=
  ∀ (s : State) (dr : Reg) (off : BitVec 9), ∃ t, exec (.lea dr off) s = .next t ∧ DestResult s t dr (s.pc + sext off)

/-- R162, R164: LD and LDR of any address but `KBSR_ADDR` complete and load the word; nothing else changes. -/
def Obligations.LdAndLdrLoadTheWord : Prop :=
  ∀ (s : State) (dr base : Reg) (off9 : BitVec 9) (off6 : BitVec 6),
    (s.pc + sext off9 ≠ s.cfg.kbsrAddr →
      ∃ t, exec (.ld dr off9) s = .next t ∧ DestResult s t dr (s.mem.read (s.pc + sext off9))) ∧
    (s.reg base + sext off6 ≠ s.cfg.kbsrAddr →
      ∃ t, exec (.ldr dr base off6) s = .next t ∧ DestResult s t dr (s.mem.read (s.reg base + sext off6)))

/-- R163: LDI whose pointer cell and pointer are not `KBSR_ADDR` completes and loads through the pointer. -/
def Obligations.LdiLoadsThroughThePointer : Prop :=
  ∀ (s : State) (dr : Reg) (off : BitVec 9),
    s.pc + sext off ≠ s.cfg.kbsrAddr → s.mem.read (s.pc + sext off) ≠ s.cfg.kbsrAddr →
      ∃ t, exec (.ldi dr off) s = .next t ∧ DestResult s t dr (s.mem.read (s.mem.read (s.pc + sext off)))

/-- R55, R58, R161: a load of `KBSR_ADDR` polls first and loads the status word: LD, LDR, the data read of LDI, and the pointer read of LDI, which then
goes on through the status word (and polls again if that word is `KBSR_ADDR`). The word 0x8000 is the spec's own choice D17 (log 21). -/
def Obligations.LoadOfStatusPollsFirst : Prop :=
  ∀ (s : State) (dr base : Reg) (off9 : BitVec 9) (off6 : BitVec 6) (answer : Option Byte),
    Memory.wf s.mem = true → s.cfg.wf = true → s.nextAnswer = some answer →
    (s.pc + sext off9 = s.cfg.kbsrAddr →
      ∃ t, exec (.ld dr off9) s = .next t ∧ Polled s t answer ∧ t.reg dr = statusWord answer ∧ t.cond = setcc (statusWord answer) ∧
        SameRegsExcept s t [dr] ∧ t.pc = s.pc ∧ t.run = s.run ∧ t.cfg = s.cfg) ∧
    (s.reg base + sext off6 = s.cfg.kbsrAddr →
      ∃ t, exec (.ldr dr base off6) s = .next t ∧ Polled s t answer ∧ t.reg dr = statusWord answer ∧ t.cond = setcc (statusWord answer) ∧
        SameRegsExcept s t [dr] ∧ t.pc = s.pc ∧ t.run = s.run ∧ t.cfg = s.cfg) ∧
    (s.pc + sext off9 ≠ s.cfg.kbsrAddr → s.mem.read (s.pc + sext off9) = s.cfg.kbsrAddr →
      ∃ t, exec (.ldi dr off9) s = .next t ∧ Polled s t answer ∧ t.reg dr = statusWord answer ∧ t.cond = setcc (statusWord answer) ∧
        SameRegsExcept s t [dr] ∧ t.pc = s.pc ∧ t.run = s.run ∧ t.cfg = s.cfg) ∧
    (s.pc + sext off9 = s.cfg.kbsrAddr → statusWord answer ≠ s.cfg.kbsrAddr →
      ∃ t, exec (.ldi dr off9) s = .next t ∧ Polled s t answer ∧ t.reg dr = t.mem.read (statusWord answer) ∧
        t.cond = setcc (t.mem.read (statusWord answer)) ∧
        SameRegsExcept s t [dr] ∧ t.pc = s.pc ∧ t.run = s.run ∧ t.cfg = s.cfg) ∧
    (s.pc + sext off9 = s.cfg.kbsrAddr → statusWord answer = s.cfg.kbsrAddr →
      ∃ u, Polled s u answer ∧ SameRegsExcept s u [] ∧ u.cond = s.cond ∧ u.pc = s.pc ∧ u.run = s.run ∧ u.cfg = s.cfg ∧
        (∀ second, u.nextAnswer = some second →
          ∃ t, exec (.ldi dr off9) s = .next t ∧ Polled u t second ∧ t.reg dr = statusWord second ∧ t.cond = setcc (statusWord second) ∧
            SameRegsExcept s t [dr] ∧ t.pc = s.pc ∧ t.run = s.run ∧ t.cfg = s.cfg) ∧
        (u.nextAnswer = none → exec (.ldi dr off9) s = .fault (.consoleNeverAnswers u)))

/-- R166, R168, R57: ST and STR complete in every state, store the whole word at any address, the device addresses included, and change nothing else: no
register, no `cond`, no other byte, and the console is not touched. -/
def Obligations.StAndStrStoreTheWord : Prop :=
  ∀ (s : State) (sr base : Reg) (off9 : BitVec 9) (off6 : BitVec 6), Memory.wf s.mem = true →
    (∃ t, exec (.st sr off9) s = .next t ∧ StoreResult s t (s.pc + sext off9) (s.reg sr)) ∧
    (∃ t, exec (.str sr base off6) s = .next t ∧ StoreResult s t (s.reg base + sext off6) (s.reg sr))

/-- R167: STI reads the pointer and stores through it; the write never polls. When the pointer cell is `KBSR_ADDR` the poll comes first and the
pointer is the status word (D17, log 21). -/
def Obligations.StiStoresThroughThePointer : Prop :=
  ∀ (s : State) (sr : Reg) (off : BitVec 9), Memory.wf s.mem = true →
    (s.pc + sext off ≠ s.cfg.kbsrAddr →
      ∃ t, exec (.sti sr off) s = .next t ∧ StoreResult s t (s.mem.read (s.pc + sext off)) (s.reg sr)) ∧
    (s.pc + sext off = s.cfg.kbsrAddr → s.cfg.wf = true → ∀ answer, s.nextAnswer = some answer →
      ∃ u t, exec (.sti sr off) s = .next t ∧ Polled s u answer ∧ SameRegsExcept s u [] ∧ u.cond = s.cond ∧ u.pc = s.pc ∧ u.run = s.run ∧
        u.cfg = s.cfg ∧ StoreResult u t (statusWord answer) (s.reg sr))

/-! ## Control transfer -/

/-- R141, R142: BR completes in every state; it is taken exactly when the mask bit of the value `cond` holds is 1 (bit 11 n, bit 10 z, bit 9 p: PRESUMED, G2,
log 17), and then goes to the incremented `pc` plus the offset; nothing else changes. -/
def Obligations.BrTakenByTheMaskBitOfCond : Prop :=
  ∀ (s : State) (mask : BitVec 3) (off : BitVec 9), ∃ t, exec (.br mask off) s = .next t ∧
    ControlResult s t
      (if (match s.cond with | .negative => mask.getLsbD 2 | .zero => mask.getLsbD 1 | .positive => mask.getLsbD 0) then s.pc + sext off else s.pc) []

/-- R143, R144: JMP goes to the base register's value, RET to R7's; both complete in every state, nothing else changes. -/
def Obligations.JmpAndRetGoToTheRegister : Prop :=
  ∀ (s : State) (base : Reg),
    (∃ t, exec (.jmp base) s = .next t ∧ ControlResult s t (s.reg base) []) ∧
    (∃ t, exec .ret s = .next t ∧ ControlResult s t (s.reg .r7) [])

/-- R145, R147: JSR and JSRR link R7 to the incremented `pc` and jump, in every state; `JSRR R7` falls through, since the base is read after the write (the
spec's own choice D10, log 18). -/
def Obligations.JsrAndJsrrLinkAndJump : Prop :=
  ∀ (s : State) (off : BitVec 11) (base : Reg),
    (∃ t, exec (.jsr off) s = .next t ∧ t.reg .r7 = s.pc ∧ ControlResult s t (s.pc + sext off) [.r7]) ∧
    (∃ t, exec (.jsrr base) s = .next t ∧ t.reg .r7 = s.pc ∧ ControlResult s t (if base = .r7 then s.pc else s.reg base) [.r7])

/-- R90: the words 0x0000 to 0x01FF have no effect but the advance of `pc`. -/
def Obligations.ZeroMaskBranchOnlyAdvancesPc : Prop :=
  ∀ s : State, s.run = .running → s.pc ≠ s.cfg.kbsrAddr → (s.mem.read s.pc).toNat < 0x200 → step s = .next (s.setPc (s.pc + 1#16))

/-! ## TRAP and its routines, for both values of `TRAP_LINKS_R7` -/

/-- R184: GETC with a character coming writes it, zero-extended (D7, log 20), to R0, leaves `cond` alone and prints nothing. -/
def Obligations.GetcReadsOneCharacter : Prop :=
  ∀ (s : State) (c : Byte), s.nextAnswer = some (some c) →
    ∃ t, exec .getc s = .next t ∧ TrapResult s t (zext c) [] s.console.answers.tail s.run

/-- R185: OUT completes in every state and sends the low 8 bits of R0. -/
def Obligations.OutSendsTheLowByteOfR0 : Prop :=
  ∀ s : State, ∃ t, exec .out s = .next t ∧ TrapResult s t (s.reg .r0) [(s.reg .r0).extractLsb' 0 8] s.console.answers s.run

/-- R186: PUTS on a string of non-zero words that ends in a zero word and does not take in `KBSR_ADDR` completes and sends the low byte of each word, in order, not
the zero word's; R0 and memory are unchanged (D12, log 23). The address wraps. -/
def Obligations.PutsPrintsTheString : Prop :=
  ∀ (s : State) (ws : List Word),
    (∀ k (h : k < ws.length), s.mem.read (s.reg .r0 + BitVec.ofNat 16 k) = ws[k] ∧ ws[k] ≠ 0#16) →
    s.mem.read (s.reg .r0 + BitVec.ofNat 16 ws.length) = 0#16 →
    (∀ k, k ≤ ws.length → s.reg .r0 + BitVec.ofNat 16 k ≠ s.cfg.kbsrAddr) →
    ∃ t, exec .puts s = .next t ∧ TrapResult s t (s.reg .r0) (ws.map lowByte) s.console.answers s.run

/-- R188: PUTSP on such a string sends for each word the low byte, then the high byte if it is not zero. -/
def Obligations.PutspPrintsThePackedString : Prop :=
  ∀ (s : State) (ws : List Word),
    (∀ k (h : k < ws.length), s.mem.read (s.reg .r0 + BitVec.ofNat 16 k) = ws[k] ∧ ws[k] ≠ 0#16) →
    s.mem.read (s.reg .r0 + BitVec.ofNat 16 ws.length) = 0#16 →
    (∀ k, k ≤ ws.length → s.reg .r0 + BitVec.ofNat 16 k ≠ s.cfg.kbsrAddr) →
    ∃ t, exec .putsp s = .next t ∧
      TrapResult s t (s.reg .r0) (ws.flatMap fun w => lowByte w :: (if highByte w ≠ 0#8 then [highByte w] else [])) s.console.answers s.run

/-- R187: IN with a character coming sends the prompt, takes the character, echoes it and writes it to R0 (D7, log 20; D12, log 23). -/
def Obligations.InPromptsReadsAndEchoes : Prop :=
  ∀ (s : State) (c : Byte), s.nextAnswer = some (some c) →
    ∃ t, exec .inChar s = .next t ∧ TrapResult s t (zext c) (s.cfg.inPrompt ++ [c]) s.console.answers.tail s.run

/-- R189, R193: HALT completes in every state: it sends the notice and sets HALTED, exit code 0. -/
def Obligations.HaltSendsTheNoticeAndHalts : Prop :=
  ∀ s : State, ∃ t, exec .halt s = .next t ∧ TrapResult s t (s.reg .r0) s.cfg.haltNotice s.console.answers .halted ∧ t.run.exitCode = some 0

/-- R190, R211: a TRAP with an undefined code, by either row, leaves the core DEAD of UndefinedTrap, exit code 21; R7 is linked first as `TRAP_LINKS_R7` says. That the
rest is frozen is the spec's own choice D15 (log 25). -/
def Obligations.UndefinedTrapCodeIsFatal : Prop :=
  ∀ (s : State) (v : BitVec 8), (v.toNat < 0x20 ∨ 0x25 < v.toNat) →
    (∃ t, exec (.trap v) s = .next t ∧ TrapResult s t (s.reg .r0) [] s.console.answers (.dead .undefinedTrap) ∧ t.run.exitCode = some 21) ∧
    (∃ t, exec (.trapUndefined v) s = .next t ∧ TrapResult s t (s.reg .r0) [] s.console.answers (.dead .undefinedTrap) ∧ t.run.exitCode = some 21)

/-- R200, R201, R214: RTI and RES leave the core DEAD of ReservedOpcode, exit code 10, in every state; the rest is frozen (D15, log 25). -/
def Obligations.RtiAndResAreFatal : Prop :=
  ∀ s : State,
    (∃ t, exec .rti s = .next t ∧ FatalResult s t .reservedOpcode ∧ t.run.exitCode = some 10) ∧
    (∃ t, exec .res s = .next t ∧ FatalResult s t .reservedOpcode ∧ t.run.exitCode = some 10)

/-- R93, R144, R180, R181: an alias row's instruction does what its primary form does: RET what JMP R7 does, GETC what TRAP x20 does, and so on. -/
def Obligations.AliasActsAsItsPrimaryForm : Prop :=
  ∀ (i : Instr) (s : State), (∀ v, i = .trapUndefined v → definedTrapCode v = false) → exec i.primary s = exec i s

/-- R182: `TRAP_LINKS_R7` changes nothing but R7: with it false a TRAP leaves R7 alone (GETC and IN write R0, nothing else writes a register), with it true the
same TRAP does the same to everything else and R7 holds the incremented `pc`. -/
def Obligations.TrapLinkTouchesOnlyR7 : Prop :=
  ∀ (i : Instr) (s t : State), i.isTrap = true → exec i { s with cfg := { s.cfg with trapLinksR7 := false } } = .next t →
    t.reg .r7 = s.reg .r7 ∧
    ∃ u, exec i { s with cfg := { s.cfg with trapLinksR7 := true } } = .next u ∧
      u.reg .r7 = s.pc ∧ SameRegsExcept t u [.r7] ∧ u.pc = t.pc ∧ u.cond = t.cond ∧ u.mem = t.mem ∧ u.run = t.run ∧ u.console = t.console

/-- R58 (d), D11 (log 22): the string loop reads through `MemRead`. A string that starts at `KBSR_ADDR` polls: on `none` it ends there with nothing sent; on a
character it sends 0x00 for PUTS and 0x00, 0x80 for PUTSP, and ends at the next word if that is zero. -/
def Obligations.StringReadOfStatusPolls : Prop :=
  ∀ (s : State), Memory.wf s.mem = true → s.cfg.wf = true → s.reg .r0 = s.cfg.kbsrAddr →
    (s.nextAnswer = some none →
      (∃ t, exec .puts s = .next t ∧ Polled s t none) ∧ (∃ t, exec .putsp s = .next t ∧ Polled s t none)) ∧
    (∀ c, s.nextAnswer = some (some c) → s.cfg.kbsrAddr + 1#16 ≠ s.cfg.kbdrAddr → s.mem.read (s.cfg.kbsrAddr + 1#16) = 0#16 →
      (∃ t, exec .puts s = .next t ∧ t.console.output = s.console.output ++ [0x00#8] ∧ t.mem.read s.cfg.kbdrAddr = zext c ∧
        t.console.answers = s.console.answers.tail) ∧
      (∃ t, exec .putsp s = .next t ∧ t.console.output = s.console.output ++ [0x00#8, 0x80#8] ∧ t.mem.read s.cfg.kbdrAddr = zext c ∧
        t.console.answers = s.console.answers.tail))

/-- R186, U7: the number of passes after which the model calls a string endless is exact: a string that has not ended by then does not end in any number of
passes (the bound is the model's inference, log 12). -/
def Obligations.HungStringNeverEnds : Prop :=
  ∀ (chars : Word → List Byte) (a : Word) (s u : State), Memory.wf s.mem = true →
    printPasses chars (passesToDecide s) a s = .fault (.stringNeverEnds u) →
    ∀ p, ∃ v, printPasses chars p a s = .fault (.stringNeverEnds v)

/-- R186, R188, R58 (d): in every state PUTS and PUTSP run the spec's own loop, which has no bound: the instruction completes exactly when that loop ends, in the state it ends in;
it waits for ever exactly when the loop comes to a poll that is never answered (D11, log 22); and where it does neither the step is endless (U7, log 12). R7 is linked first. -/
def Obligations.PutsAndPutspRunTheStringLoop : Prop :=
  ∀ (s : State), Memory.wf s.mem = true → ∀ (i : Instr) (chars : Word → List Byte),
    (i = .puts ∧ chars = fun w => [lowByte w]) ∨
      (i = .putsp ∧ chars = fun w => lowByte w :: (if highByte w ≠ 0#8 then [highByte w] else [])) →
    ∃ u, u = s.setReg .r7 (if s.cfg.trapLinksR7 then s.pc else s.reg .r7) ∧
      (∀ t, exec i s = .next t ↔ StringEnds chars (s.reg .r0) u t) ∧
      (∀ t, exec i s = .fault (.consoleNeverAnswers t) ↔ StringWaits chars (s.reg .r0) u t) ∧
      ((∃ t, exec i s = .fault (.stringNeverEnds t)) ↔
        ((∀ t, ¬ StringEnds chars (s.reg .r0) u t) ∧ ∀ t, ¬ StringWaits chars (s.reg .r0) u t))

/-! ## The console and the device words -/

/-- R52, R55, R72: a read of `KBSR_ADDR` polls and returns the status word, or, if the port never answers, never completes (0x8000: D17, log 21). -/
def Obligations.ReadOfStatusPollsTheConsole : Prop :=
  ∀ s : State, Memory.wf s.mem = true → s.cfg.wf = true →
    (∀ answer, s.nextAnswer = some answer →
      ∃ t, memRead s.cfg.kbsrAddr s = .ok (statusWord answer, t) ∧ Polled s t answer ∧
        SameRegsExcept s t [] ∧ t.cond = s.cond ∧ t.pc = s.pc ∧ t.run = s.run ∧ t.cfg = s.cfg) ∧
    (s.nextAnswer = none → memRead s.cfg.kbsrAddr s = .error (.consoleNeverAnswers s))

/-- R56: a read of `KBDR_ADDR` returns the word and has no side effect, so twice it returns the same word twice. -/
def Obligations.ReadOfDataRegisterHasNoEffect : Prop :=
  ∀ s : State, s.cfg.wf = true → memRead s.cfg.kbdrAddr s = .ok (s.mem.read s.cfg.kbdrAddr, s)

/-- R53: `MemWrite` stores all 16 bits at any address and has no other effect. -/
def Obligations.MemWriteStoresUnconditionally : Prop :=
  ∀ (s : State) (a v : Word), Memory.wf s.mem = true → StoreResult s (memWrite a v s) a v

/-- R57: a word stored at `KBSR_ADDR` is never read back, the next read polls; a word stored at `KBDR_ADDR` is read back (0x8000: D17, log 21). -/
def Obligations.StatusStoreIsLostDataStoreIsKept : Prop :=
  ∀ (s : State) (v : Word), Memory.wf s.mem = true → s.cfg.wf = true →
    (∀ answer, s.nextAnswer = some answer →
      ∃ t, memRead s.cfg.kbsrAddr (memWrite s.cfg.kbsrAddr v s) = .ok (statusWord answer, t)) ∧
    (∃ t, memRead s.cfg.kbdrAddr (memWrite s.cfg.kbdrAddr v s) = .ok (v, t))

/-- R70, R72, R184, R187, R192, U4: a console read that is never answered, or answered `none` inside GETC or IN, does not complete; IN's prompt has been sent by then
(which fault stands for it is the model's, logs 10 and 11). -/
def Obligations.UnansweredConsoleReadDoesNotComplete : Prop :=
  ∀ s : State,
    (s.nextAnswer = none →
      (∃ u, exec .getc s = .fault (.consoleNeverAnswers u) ∧ u.console = s.console ∧ u.run = s.run) ∧
      (∃ u, exec .inChar s = .fault (.consoleNeverAnswers u) ∧ u.console.output = s.console.output ++ s.cfg.inPrompt ∧ u.run = s.run) ∧
      (∀ (r base : Reg) (off9 : BitVec 9) (off6 : BitVec 6),
        (s.pc + sext off9 = s.cfg.kbsrAddr →
          exec (.ld r off9) s = .fault (.consoleNeverAnswers s) ∧ exec (.ldi r off9) s = .fault (.consoleNeverAnswers s) ∧
          exec (.sti r off9) s = .fault (.consoleNeverAnswers s)) ∧
        (s.pc + sext off9 ≠ s.cfg.kbsrAddr → s.mem.read (s.pc + sext off9) = s.cfg.kbsrAddr →
          exec (.ldi r off9) s = .fault (.consoleNeverAnswers s)) ∧
        (s.reg base + sext off6 = s.cfg.kbsrAddr → exec (.ldr r base off6) s = .fault (.consoleNeverAnswers s)))) ∧
    (s.nextAnswer = some none →
      (∃ u, exec .getc s = .fault (.consoleAnsweredNone u) ∧ u.console.output = s.console.output ∧ u.run = s.run) ∧
      (∃ u, exec .inChar s = .fault (.consoleAnsweredNone u) ∧ u.console.output = s.console.output ++ s.cfg.inPrompt ∧ u.run = s.run))

/-! ## Encoding -/

/-- R93: the nineteen primary rows do not overlap and cover every word, and the row a word fits is that of the form it decodes to; so does the more specific row of an
alias. -/
def Obligations.EveryWordFitsExactlyOnePrimaryRow : Prop :=
  ∀ w : Word, primaryRows.filter (fun row => row.fits w) = [(decodePrimary w).row] ∧ (decode w).row.fits w = true

/-- R82, R84, R85: decoding an encoded well-formed instruction gives it back, with every operand at every value. -/
def Obligations.DecodeOfEncodeIsIdentity : Prop :=
  ∀ i : Instr, i.wellFormed = true → decode (encode i) = i

/-- R82, R88: encoding a decoded word gives the word back but for the bits no field uses, and the result decodes alike. -/
def Obligations.EncodeOfDecodeKeepsUsedBits : Prop :=
  ∀ w : Word, encode (decode w) &&& (decode w).usedBits = w &&& (decode w).usedBits ∧ decode (encode (decode w)) = decode w

/-- R88 (D9, log 19): words that agree in the used bits decode alike, whatever the ignored bits hold. -/
def Obligations.IgnoredBitsDoNotMatter : Prop :=
  ∀ w w' : Word, w' &&& (decode w).usedBits = w &&& (decode w).usedBits → decode w' = decode w

/-- R85, R93 (log 2): what the decoder gives is well-formed, for every word. -/
def Obligations.DecodedInstructionIsWellFormed : Prop :=
  ∀ w : Word, (decode w).wellFormed = true

/-- R85 and 95_test_vectors.md section 2.9: words written out from the formats of R82 decode to the instructions they stand for. -/
def Obligations.WrittenOutWordsDecode : Prop :=
  decode 0b0000_010_000000010#16 = .br 0b010#3 2#9 ∧
  decode 0b0001_000_001_0_00_010#16 = .addReg .r0 .r1 .r2 ∧
  decode 0b0001_000_001_1_11111#16 = .addImm .r0 .r1 0b11111#5 ∧
  decode 0b0100_1_00000000011#16 = .jsr 3#11 ∧
  decode 0b0100_0_11_111_111111#16 = .jsrr .r7 ∧
  decode 0b0110_000_001_111111#16 = .ldr .r0 .r1 0b111111#6 ∧
  decode 0b1011_011_000000101#16 = .sti .r3 5#9 ∧
  decode 0b1100_000_111_000000#16 = .ret ∧
  decode 0b1101_111010101101#16 = .res ∧
  decode 0b1000_101010111100#16 = .rti ∧
  decode 0b1111_0001_00100011#16 = .inChar ∧
  decode 0b1111_1111_11111111#16 = .trap 0xFF#8

/-! ## The step and the whole machine -/

/-- R33, R58 (a): a RUNNING core fetches at `pc`, increments `pc`, decodes and executes; when `pc` is `KBSR_ADDR` the fetch polls and the status word is what is
executed; an unanswered fetch does not complete (0x8000: D17, log 21). -/
def Obligations.StepRunsTheDecodedInstruction : Prop :=
  ∀ s : State, s.run = .running →
    (s.pc ≠ s.cfg.kbsrAddr → step s = exec (decode (s.mem.read s.pc)) (s.setPc (s.pc + 1#16))) ∧
    (s.pc = s.cfg.kbsrAddr → Memory.wf s.mem = true → s.cfg.wf = true →
      (∀ answer, s.nextAnswer = some answer →
        ∃ u, Polled s u answer ∧ SameRegsExcept s u [] ∧ u.cond = s.cond ∧ u.pc = s.pc + 1#16 ∧ u.run = s.run ∧ u.cfg = s.cfg ∧
          step s = exec (decode (statusWord answer)) u) ∧
      (s.nextAnswer = none → step s = .fault (.consoleNeverAnswers s)))

/-- The host's placing of an instruction (log 14): the very next step runs the instruction the decoder reads from the table's bits. -/
def Obligations.PlacedInstructionRunsNext : Prop :=
  ∀ (s : State) (nbits w : Nat), Memory.wf s.mem = true → nbits ≤ 16 →
    ∃ i, decodeTableWord nbits w = some i ∧
      step (s.withFetchWord nbits w) = exec i ((s.withFetchWord nbits w).setPc ((s.withFetchWord nbits w).pc + 1#16))

/-- R33, R193, R214: a HALTED or DEAD core makes no step: nothing is fetched and no state changes (that the model's step answers the same state is its choice,
log 13). -/
def Obligations.HaltedOrDeadCoreNeverChanges : Prop :=
  ∀ s : State, s.run ≠ .running → step s = .next s

/-- The invariant: every step keeps the memory's canonical form, the two device addresses distinct, and the core not dead of UndefinedOpcode. -/
def Obligations.StepKeepsInvariant : Prop :=
  ∀ s t : State, s.Inv → step s = .next t → t.Inv

/-- The invariant holds at reset, whatever the parameters and the console. -/
def Obligations.ResetSatisfiesInvariant : Prop :=
  State.reset.Inv ∧ ∀ (cfg : Config) (console : Console), cfg.wf = true → (State.resetWith cfg console).Inv

/-- R38, R240, R242, R245: the reset input, from any state, HALTED and DEAD included, leaves the reset values and the console alone; booting then loads the images and
changes memory only: a word holds what the last image with a word for its address gives it, and 0x0000 where no image writes. `cond` = ZERO is the spec's own choice D4 (log 8), RUNNING the model's reading (log 14). -/
def Obligations.ResetAndBootLeaveTheResetValues : Prop :=
  ∀ s : State,
    ((hostReset s).pc = s.cfg.pcReset ∧ (hostReset s).cond = .zero ∧ (hostReset s).run = .running ∧ (hostReset s).run.exitCode = none ∧
      (hostReset s).console = s.console ∧ (∀ j, (hostReset s).reg j = 0x0000#16) ∧ (∀ a, (hostReset s).mem.read a = 0x0000#16)) ∧
    (∀ (images : List (List Byte)) (t : State), boot images s = .next t →
      t.pc = s.cfg.pcReset ∧ t.cond = .zero ∧ t.run = .running ∧ t.console = s.console ∧ t.cfg = s.cfg ∧ (∀ j, t.reg j = 0x0000#16) ∧
      Memory.wf t.mem = true ∧ ∀ a : Word, t.mem.read a = (images.reverse.findSome? (fun image => imageCell image a)).getD 0x0000#16)

/-- R70, R71, R240: no step changes a parameter or how the port goes on; the output record only grows, and answers are only taken from the front. -/
def Obligations.ParametersFixedOutputGrowsAnswersAreTaken : Prop :=
  ∀ s t : State, step s = .next t →
    t.cfg = s.cfg ∧ t.console.rest = s.console.rest ∧
    (∃ sent, t.console.output = s.console.output ++ sent) ∧ (∃ taken, s.console.answers = taken ++ t.console.answers)

/-- R73: the only ways a character reaches the output are OUT, PUTS, PUTSP, IN and HALT; in particular a store to any address prints nothing. -/
def Obligations.OnlyFiveRoutinesPrint : Prop :=
  (∀ (i : Instr) (s t : State), i.prints = false → exec i s = .next t → t.console.output = s.console.output) ∧
  (∀ s t : State, step s = .next t → t.console.output ≠ s.console.output →
    ∃ ir u, fetch s = .ok (ir, u) ∧ (decode ir).prints = true)

/-- R33, R202, R253: a step leaves RUNNING only by HALT, to HALTED, or by a fatal condition of RTI, RES or a TRAP with an undefined code, to DEAD of the
kind that instruction raises. -/
def Obligations.LeavesRunningOnlyByHaltOrFatal : Prop :=
  ∀ s t : State, s.run = .running → step s = .next t → t.run ≠ .running →
    ∃ ir u, fetch s = .ok (ir, u) ∧
      ((decode ir = .halt ∧ t.run = .halted) ∨
       ((decode ir = .rti ∨ decode ir = .res) ∧ t.run = .dead .reservedOpcode) ∨
       (∃ v, decode ir = .trap v ∧ definedTrapCode v = false ∧ t.run = .dead .undefinedTrap))

/-- R226: the kind UndefinedOpcode and its code 20 are kept, and no rule raises it: no instruction and no step makes the core dead of it. -/
def Obligations.UndefinedOpcodeIsNeverRaised : Prop :=
  FatalKind.undefinedOpcode.exitCode = 20 ∧
  (∀ (i : Instr) (s t : State), exec i s = .next t → t.run = .dead .undefinedOpcode → s.run = .dead .undefinedOpcode) ∧
  (∀ s t : State, step s = .next t → t.run = .dead .undefinedOpcode → s.run = .dead .undefinedOpcode)

/-- R24: an instruction that is no control transfer leaves the incremented `pc`: data movement, the ALU, every TRAP, RTI and RES. -/
def Obligations.OnlyControlTransfersWritePc : Prop :=
  ∀ (i : Instr) (s t : State), i.isControl = false → exec i s = .next t → t.pc = s.pc

/-- R21, R22, R183: an instruction changes no register but those the spec says it writes: its destination register, R7 for JSR and JSRR, R0 for GETC and IN, R7 for a
TRAP when `TRAP_LINKS_R7` is true. -/
def Obligations.RegistersWrittenOnlyAsListed : Prop :=
  ∀ (i : Instr) (s t : State), exec i s = .next t → SameRegsExcept s t (i.regsWritten s.cfg.trapLinksR7)

/-- R58, R64, R183: an instruction that is no store changes no byte of memory but the device words; one that reads no memory either changes none at all; and only an
instruction that reads memory, GETC or IN takes an answer from the console. -/
def Obligations.MemoryAndAnswersChangeOnlyByStoresAndPolls : Prop :=
  ∀ (i : Instr) (s t : State), exec i s = .next t →
    (i.isStore = false → SameBytesOutside s t [s.cfg.kbsrAddr, s.cfg.kbdrAddr]) ∧
    (i.isStore = false → i.readsMemory = false → t.mem = s.mem) ∧
    (i.readsMemory = false → i.readsConsole = false → t.console.answers = s.console.answers)

/-- R67: a store is seen by the very next fetch, with nothing needed in between. -/
def Obligations.StoreIsSeenByTheNextFetch : Prop :=
  ∀ (s : State) (sr : Reg) (off : BitVec 9), Memory.wf s.mem = true → s.run = .running →
    s.pc ≠ s.cfg.kbsrAddr → s.pc + 1#16 ≠ s.cfg.kbsrAddr →
    decode (s.mem.read s.pc) = .st sr off → sext off = 0#16 →
    ∃ t, step s = .next t ∧ step t = exec (decode (s.reg sr)) (t.setPc (s.pc + 2#16))

/-! ## Completion -/

/-- R252: an instruction that needs no console input completes: no GETC, IN, PUTS or PUTSP, and no data read of `KBSR_ADDR`. -/
def Obligations.InstructionWithoutConsoleInputCompletes : Prop :=
  ∀ (i : Instr) (s : State), i.readsConsole = false → i.routine ≠ some .puts → i.routine ≠ some .putsp →
    (∀ a ∈ dataReads i s, a ≠ s.cfg.kbsrAddr) → ∃ t, exec i s = .next t

/-- R252: a load or an STI whose console reads are answered completes (at most two reads poll). -/
def Obligations.AnsweredReadsComplete : Prop :=
  ∀ (s : State) (r base : Reg) (off9 : BitVec 9) (off6 : BitVec 6),
    (2 ≤ s.console.answers.length ∨ s.console.rest ≠ .silent) →
    (∃ t, exec (.ld r off9) s = .next t) ∧ (∃ t, exec (.ldi r off9) s = .next t) ∧
    (∃ t, exec (.ldr r base off6) s = .next t) ∧ (∃ t, exec (.sti r off9) s = .next t)

/-- R72, R253: a step never refuses and never fails as a load does; a step that does not complete leaves the core RUNNING, neither halted nor dead, with everything it had sent
on the output (the three faults are the model's, logs 10 to 12). -/
def Obligations.StuckStepIsStillRunning : Prop :=
  ∀ s : State,
    (∀ r, step s ≠ .refused r) ∧
    (∀ f, step s = .fault f →
      ∃ u, (f = .consoleNeverAnswers u ∨ f = .consoleAnsweredNone u ∨ f = .stringNeverEnds u) ∧
        u.run = .running ∧ ∃ sent, u.console.output = s.console.output ++ sent)

/-! ## The image loader -/

/-- R244: the first word of an image is the load address, the rest are stored big-endian at consecutive addresses from it, and nothing else is modified: neither another byte of
memory, nor a register, `pc` or `cond`. -/
def Obligations.LoadImageStoresItsWords : Prop :=
  ∀ (s : State) (hi lo : Byte) (b : List Byte), Memory.wf s.mem = true →
    hi.toNat * 256 + lo.toNat + b.length / 2 ≤ 65536 →
    ∃ t, loadImage (hi :: lo :: b) s = .next t ∧
      (∀ k (h : k < b.length / 2), (t.mem.read (BitVec.ofNat 16 (hi.toNat * 256 + lo.toNat + k))).toNat =
        (b[2 * k]'(by omega)).toNat * 256 + (b[2 * k + 1]'(by omega)).toNat) ∧
      (∀ a : Word, (a.toNat < hi.toNat * 256 + lo.toNat ∨ hi.toNat * 256 + lo.toNat + b.length / 2 ≤ a.toNat) →
        t.mem.read a = s.mem.read a) ∧
      t.regs = s.regs ∧ t.pc = s.pc ∧ t.cond = s.cond ∧ t.run = s.run ∧ t.console = s.console ∧ t.cfg = s.cfg

/-- R245: images load in the order given, and where two write the same address the word of the later image stays; a word no image writes stays as it was. -/
def Obligations.LaterImageWins : Prop :=
  ∀ (images : List (List Byte)) (s t : State), Memory.wf s.mem = true → loadImages images s = .next t →
    ∀ a : Word, t.mem.read a = (images.reverse.findSome? (fun image => imageCell image a)).getD (s.mem.read a)

/-- R246, R247 (D16, log 27): fewer than two bytes are a load failure, exit code 1; two or three bytes load nothing; an odd last byte is ignored; an image that runs past
0xFFFF is refused. -/
def Obligations.ImageCornerCases : Prop :=
  ∀ (s : State) (x y z : Byte) (b : List Byte),
    (loadImage [] s = .fault .loadFailure ∧ loadImage [x] s = .fault .loadFailure ∧ loadFailureExitCode = 1) ∧
    (loadImage [x, y] s = .next s ∧ loadImage [x, y, z] s = .next s) ∧
    (b.length % 2 = 0 → loadImage (x :: y :: (b ++ [z])) s = loadImage (x :: y :: b) s) ∧
    (65536 < x.toNat * 256 + y.toNat + b.length / 2 → loadImage (x :: y :: b) s = .refused .imageTooLong)
end

