-- ==== Sys2Proof/Laws/Memory.lean ====
section
/-! SUPPORT. The laws of the store: a read after a write, that every write keeps the canonical form, and that canonical memories which read
alike are equal. -/

namespace Sys2Proof.Machine

@[simp] theorem wordOfBytes_high_low (w : Word) : wordOfBytes (highByte w) (lowByte w) = w := by
  unfold wordOfBytes highByte lowByte
  ext i hi
  simp only [BitVec.getElem_append, BitVec.getElem_extractLsb']
  split
  · simp [BitVec.getLsbD_eq_getElem hi]
  · rw [← BitVec.getLsbD_eq_getElem]; congr 1; omega

@[simp] theorem highByte_wordOfBytes (hi lo : Byte) : highByte (wordOfBytes hi lo) = hi := by
  unfold wordOfBytes highByte
  ext i h
  rw [BitVec.getElem_extractLsb', BitVec.getLsbD_append (x := hi) (y := lo)]
  simp [h]

@[simp] theorem lowByte_wordOfBytes (hi lo : Byte) : lowByte (wordOfBytes hi lo) = lo := by
  unfold wordOfBytes lowByte
  ext i h
  rw [BitVec.getElem_extractLsb', BitVec.getLsbD_append (x := hi) (y := lo)]
  simp [h]

theorem Memory.wfFrom_cons (lo k : Nat) (b : Byte) (rest : Memory) :
    Memory.wfFrom lo ((k, b) :: rest) = true ↔
      lo ≤ k ∧ k < 131072 ∧ b ≠ Memory.unlisted ∧ Memory.wfFrom (k + 1) rest = true := by
  simp [Memory.wfFrom, and_assoc]

theorem Memory.wfFrom_mono {lo lo' : Nat} (h : lo' ≤ lo) {m : Memory} (hm : Memory.wfFrom lo m = true) :
    Memory.wfFrom lo' m = true := by
  cases m with
  | nil => rfl
  | cons c rest =>
    obtain ⟨k, b⟩ := c
    rw [Memory.wfFrom_cons] at hm ⊢
    exact ⟨by omega, hm.2⟩

/-- A key below all listed ones reads as an unlisted byte. -/
theorem Memory.readByte_below {lo key : Nat} (h : key < lo) {m : Memory} (hm : Memory.wfFrom lo m = true) :
    Memory.readByte m key = Memory.unlisted := by
  induction m generalizing lo with
  | nil => rfl
  | cons c rest ih =>
    obtain ⟨k, b⟩ := c
    rw [Memory.wfFrom_cons] at hm
    have hne : k ≠ key := by omega
    simpa [Memory.readByte, hne] using ih (by omega) hm.2.2.2

/-- A byte write keeps the canonical form. -/
theorem Memory.writeByte_wfFrom {lo key : Nat} (hlo : lo ≤ key) (hkey : key < 131072) {m : Memory}
    (hm : Memory.wfFrom lo m = true) (v : Byte) : Memory.wfFrom lo (Memory.writeByte m key v) = true := by
  induction m generalizing lo with
  | nil =>
    by_cases hv : v = Memory.unlisted
    · simp [Memory.writeByte, hv, Memory.wfFrom]
    · simp [Memory.writeByte, hv, hlo, hkey, Memory.wfFrom]
  | cons c rest ih =>
    obtain ⟨k, b⟩ := c
    obtain ⟨h1, h2, h3, h4⟩ := (Memory.wfFrom_cons lo k b rest).1 hm
    by_cases hlt : key < k
    · by_cases hv : v = Memory.unlisted
      · simpa [Memory.writeByte, hlt, hv] using hm
      · simp only [Memory.writeByte, hlt, hv, if_true, if_false, Memory.wfFrom_cons]
        exact ⟨hlo, hkey, hv, by omega, h2, h3, h4⟩
    · by_cases heq : key = k
      · subst heq
        by_cases hv : v = Memory.unlisted
        · simpa [Memory.writeByte, hv] using Memory.wfFrom_mono (by omega) h4
        · simp only [Memory.writeByte, hlt, hv, if_true, if_false, Memory.wfFrom_cons]
          exact ⟨hlo, hkey, hv, h4⟩
      · simp only [Memory.writeByte, hlt, heq, if_false, Memory.wfFrom_cons]
        exact ⟨h1, h2, h3, ih (by omega) h4⟩

/-- A byte read after a byte write: the byte written at its key, every other byte as before. -/
theorem Memory.readByte_writeByte {lo : Nat} {m : Memory} (hm : Memory.wfFrom lo m = true) (key j : Nat) (v : Byte) :
    Memory.readByte (Memory.writeByte m key v) j = if j = key then v else Memory.readByte m j := by
  induction m generalizing lo with
  | nil =>
    by_cases hv : v = Memory.unlisted
    · by_cases hj : j = key <;> simp [Memory.writeByte, Memory.readByte, hv, hj]
    · by_cases hj : j = key
      · simp [Memory.writeByte, Memory.readByte, hv, hj]
      · simp [Memory.writeByte, Memory.readByte, hv, hj, Ne.symm hj]
  | cons c rest ih =>
    obtain ⟨k, b⟩ := c
    obtain ⟨h1, h2, h3, h4⟩ := (Memory.wfFrom_cons lo k b rest).1 hm
    by_cases hlt : key < k
    · have hbelow : Memory.readByte ((k, b) :: rest) key = Memory.unlisted :=
        Memory.readByte_below hlt ((Memory.wfFrom_cons k k b rest).2 ⟨le_refl k, h2, h3, h4⟩)
      by_cases hv : v = Memory.unlisted
      · by_cases hj : j = key
        · subst hj; simp [Memory.writeByte, hlt, hv, hbelow]
        · simp [Memory.writeByte, hlt, hv, hj]
      · by_cases hj : j = key
        · subst hj; simp [Memory.writeByte, hlt, hv, Memory.readByte]
        · simp only [Memory.writeByte, hlt, hv, if_true, if_false, hj]
          rw [Memory.readByte, if_neg (Ne.symm hj)]
    · by_cases heq : key = k
      · subst heq
        by_cases hv : v = Memory.unlisted
        · by_cases hj : j = key
          · subst hj
            simpa [Memory.writeByte, hv] using Memory.readByte_below (Nat.lt_succ_self j) h4
          · simp [Memory.writeByte, hv, hj, Memory.readByte, Ne.symm hj]
        · by_cases hj : j = key
          · subst hj; simp [Memory.writeByte, hv, Memory.readByte]
          · simp [Memory.writeByte, hv, hj, Memory.readByte, Ne.symm hj]
      · simp only [Memory.writeByte, hlt, heq, if_false, Memory.readByte, ih h4]
        by_cases hk : k = j
        · have : j ≠ key := by omega
          simp [hk, this]
        · simp [hk]

/-- A byte write leaves every other byte alone, whatever the list. -/
theorem Memory.readByte_writeByte_ne (m : Memory) {key j : Nat} (v : Byte) (hj : j ≠ key) :
    Memory.readByte (Memory.writeByte m key v) j = Memory.readByte m j := by
  induction m with
  | nil => by_cases hv : v = Memory.unlisted <;> simp [Memory.writeByte, Memory.readByte, hv, Ne.symm hj]
  | cons c rest ih =>
    obtain ⟨k, b⟩ := c
    by_cases hlt : key < k
    · by_cases hv : v = Memory.unlisted <;> simp [Memory.writeByte, Memory.readByte, hlt, hv, Ne.symm hj]
    · by_cases heq : key = k
      · subst heq
        by_cases hv : v = Memory.unlisted <;> simp [Memory.writeByte, Memory.readByte, hv, Ne.symm hj]
      · simp [Memory.writeByte, Memory.readByte, hlt, heq, ih]

/-- Canonical memories that read alike at every key are equal. -/
theorem Memory.ext_readByte {lo : Nat} {m n : Memory} (hm : Memory.wfFrom lo m = true) (hn : Memory.wfFrom lo n = true)
    (h : ∀ j, Memory.readByte m j = Memory.readByte n j) : m = n := by
  induction m generalizing lo n with
  | nil =>
    cases n with
    | nil => rfl
    | cons c rest =>
      obtain ⟨k, b⟩ := c
      have := h k
      simp only [Memory.readByte, if_true] at this
      exact absurd this.symm ((Memory.wfFrom_cons lo k b rest).1 hn).2.2.1
  | cons c rest ih =>
    obtain ⟨k, b⟩ := c
    obtain ⟨h1, h2, h3, h4⟩ := (Memory.wfFrom_cons lo k b rest).1 hm
    cases n with
    | nil =>
      have := h k
      simp only [Memory.readByte, if_true] at this
      exact absurd this h3
    | cons d rest' =>
      obtain ⟨k', b'⟩ := d
      obtain ⟨g1, g2, g3, g4⟩ := (Memory.wfFrom_cons lo k' b' rest').1 hn
      have hk : k = k' := by
        rcases Nat.lt_trichotomy k k' with hlt | heq | hgt
        · have e := h k
          rw [Memory.readByte_below hlt ((Memory.wfFrom_cons k' k' b' rest').2 ⟨le_refl _, g2, g3, g4⟩)] at e
          simp only [Memory.readByte, if_true] at e
          exact absurd e h3
        · exact heq
        · have e := h k'
          rw [Memory.readByte_below hgt ((Memory.wfFrom_cons k k b rest).2 ⟨le_refl _, h2, h3, h4⟩)] at e
          simp only [Memory.readByte, if_true] at e
          exact absurd e.symm g3
      subst hk
      have hb : b = b' := by simpa [Memory.readByte] using h k
      subst hb
      congr 1
      refine ih h4 g4 fun j => ?_
      by_cases hj : k = j
      · subst hj
        rw [Memory.readByte_below (Nat.lt_succ_self _) h4, Memory.readByte_below (Nat.lt_succ_self _) g4]
      · simpa [Memory.readByte, hj] using h j

/-- The canonical form of the empty store. -/
@[simp] theorem Memory.wf_nil : Memory.wf [] = true := rfl

/-- A store that lists nothing reads zero everywhere (10_state.md R31). -/
@[simp] theorem Memory.read_nil (a : Word) : Memory.read [] a = 0#16 := by
  simp [Memory.read, Memory.readByte, Memory.unlisted, wordOfBytes]

/-- A word write keeps the canonical form. -/
theorem Memory.write_wf {m : Memory} (hm : Memory.wf m = true) (a v : Word) : Memory.wf (m.write a v) = true := by
  have ha := a.isLt
  exact Memory.writeByte_wfFrom (Nat.zero_le _) (by omega)
    (Memory.writeByte_wfFrom (Nat.zero_le _) (by omega) hm _) _

/-- A word read after a word write: the word written at its address, every other word as before (20_memory.md R51, R53). -/
theorem Memory.read_write {m : Memory} (hm : Memory.wf m = true) (a b v : Word) :
    (m.write a v).read b = if b = a then v else m.read b := by
  have ha := a.isLt
  have h1 : Memory.wfFrom 0 (Memory.writeByte m (2 * a.toNat) (highByte v)) = true :=
    Memory.writeByte_wfFrom (Nat.zero_le _) (by omega) hm _
  have e1 : (2 * b.toNat + 1 = 2 * a.toNat) = False := by simp; omega
  have e2 : (2 * b.toNat = 2 * a.toNat + 1) = False := by simp; omega
  have e3 : (2 * b.toNat = 2 * a.toNat) = (b = a) := by
    rw [← BitVec.toNat_inj, eq_iff_iff]; omega
  have e4 : (2 * b.toNat + 1 = 2 * a.toNat + 1) = (b = a) := by
    rw [← BitVec.toNat_inj, eq_iff_iff]; omega
  simp only [Memory.read, Memory.write, Memory.readByte_writeByte h1, Memory.readByte_writeByte hm, e1, e2, e3, e4, if_false]
  split <;> simp

theorem Memory.read_write_same {m : Memory} (hm : Memory.wf m = true) (a v : Word) : (m.write a v).read a = v := by
  simp [Memory.read_write hm]

theorem Memory.read_write_ne {m : Memory} (hm : Memory.wf m = true) {a b : Word} (v : Word) (h : b ≠ a) :
    (m.write a v).read b = m.read b := by
  simp [Memory.read_write hm, h]

/-- Every byte outside the word written reads as before. -/
theorem Memory.readByte_write (m : Memory) (a v : Word) (key : Nat)
    (h : key ≠ 2 * a.toNat ∧ key ≠ 2 * a.toNat + 1) : Memory.readByte (m.write a v) key = Memory.readByte m key := by
  rw [Memory.write, Memory.readByte_writeByte_ne _ _ h.2, Memory.readByte_writeByte_ne _ _ h.1]

/-- Canonical stores that read alike at every address are the same list. -/
theorem Memory.ext_read {m n : Memory} (hm : Memory.wf m = true) (hn : Memory.wf n = true)
    (h : ∀ a, m.read a = n.read a) : m = n := by
  have high : ∀ {p : Memory}, Memory.wf p = true → ∀ j, 131072 ≤ j → Memory.readByte p j = Memory.unlisted := by
    intro p hp j hj
    have : ∀ (lo : Nat) (q : Memory), Memory.wfFrom lo q = true → Memory.readByte q j = Memory.unlisted := by
      intro lo q
      induction q generalizing lo with
      | nil => intro _; rfl
      | cons c rest ih =>
        obtain ⟨k, b⟩ := c
        intro hq
        rw [Memory.wfFrom_cons] at hq
        have : k ≠ j := by omega
        simpa [Memory.readByte, this] using ih _ hq.2.2.2
    exact this 0 p hp
  refine Memory.ext_readByte hm hn fun j => ?_
  by_cases hj : j < 131072
  · have hw := h (BitVec.ofNat 16 (j / 2))
    have hn2 : (BitVec.ofNat 16 (j / 2)).toNat = j / 2 := by simp; omega
    have hh := congrArg highByte hw
    have hl := congrArg lowByte hw
    simp only [Memory.read, highByte_wordOfBytes, lowByte_wordOfBytes, hn2] at hh hl
    rcases Nat.even_or_odd' j with ⟨q, rfl | rfl⟩
    · simpa using hh
    · have : (2 * q + 1) / 2 = q := by omega
      simpa [this] using hl
  · rw [high hm j (by omega), high hn j (by omega)]

end Sys2Proof.Machine
end

