-- ==== Sys2Proof/Laws/State.lean ====
section
/-! SUPPORT. One lemma per field per update, true by rfl, and what a register reads after each update: later proofs never unfold a record
update. -/

namespace Sys2Proof.Machine

variable (s : State)

@[simp] theorem State.setReg_pc (i : Reg) (v : Word) : (s.setReg i v).pc = s.pc := rfl
@[simp] theorem State.setReg_cond (i : Reg) (v : Word) : (s.setReg i v).cond = s.cond := rfl
@[simp] theorem State.setReg_mem (i : Reg) (v : Word) : (s.setReg i v).mem = s.mem := rfl
@[simp] theorem State.setReg_run (i : Reg) (v : Word) : (s.setReg i v).run = s.run := rfl
@[simp] theorem State.setReg_console (i : Reg) (v : Word) : (s.setReg i v).console = s.console := rfl
@[simp] theorem State.setReg_cfg (i : Reg) (v : Word) : (s.setReg i v).cfg = s.cfg := rfl
@[simp] theorem State.setReg_regs (i : Reg) (v : Word) : (s.setReg i v).regs = s.regs.set i v := rfl

@[simp] theorem State.setPc_pc (v : Word) : (s.setPc v).pc = v := rfl
@[simp] theorem State.setPc_cond (v : Word) : (s.setPc v).cond = s.cond := rfl
@[simp] theorem State.setPc_mem (v : Word) : (s.setPc v).mem = s.mem := rfl
@[simp] theorem State.setPc_run (v : Word) : (s.setPc v).run = s.run := rfl
@[simp] theorem State.setPc_console (v : Word) : (s.setPc v).console = s.console := rfl
@[simp] theorem State.setPc_cfg (v : Word) : (s.setPc v).cfg = s.cfg := rfl
@[simp] theorem State.setPc_regs (v : Word) : (s.setPc v).regs = s.regs := rfl

@[simp] theorem State.setCond_pc (c : Cond) : (s.setCond c).pc = s.pc := rfl
@[simp] theorem State.setCond_cond (c : Cond) : (s.setCond c).cond = c := rfl
@[simp] theorem State.setCond_mem (c : Cond) : (s.setCond c).mem = s.mem := rfl
@[simp] theorem State.setCond_run (c : Cond) : (s.setCond c).run = s.run := rfl
@[simp] theorem State.setCond_console (c : Cond) : (s.setCond c).console = s.console := rfl
@[simp] theorem State.setCond_cfg (c : Cond) : (s.setCond c).cfg = s.cfg := rfl
@[simp] theorem State.setCond_regs (c : Cond) : (s.setCond c).regs = s.regs := rfl

@[simp] theorem State.setMem_pc (m : Memory) : (s.setMem m).pc = s.pc := rfl
@[simp] theorem State.setMem_cond (m : Memory) : (s.setMem m).cond = s.cond := rfl
@[simp] theorem State.setMem_mem (m : Memory) : (s.setMem m).mem = m := rfl
@[simp] theorem State.setMem_run (m : Memory) : (s.setMem m).run = s.run := rfl
@[simp] theorem State.setMem_console (m : Memory) : (s.setMem m).console = s.console := rfl
@[simp] theorem State.setMem_cfg (m : Memory) : (s.setMem m).cfg = s.cfg := rfl
@[simp] theorem State.setMem_regs (m : Memory) : (s.setMem m).regs = s.regs := rfl

@[simp] theorem State.setRun_pc (r : RunState) : (s.setRun r).pc = s.pc := rfl
@[simp] theorem State.setRun_cond (r : RunState) : (s.setRun r).cond = s.cond := rfl
@[simp] theorem State.setRun_mem (r : RunState) : (s.setRun r).mem = s.mem := rfl
@[simp] theorem State.setRun_run (r : RunState) : (s.setRun r).run = r := rfl
@[simp] theorem State.setRun_console (r : RunState) : (s.setRun r).console = s.console := rfl
@[simp] theorem State.setRun_cfg (r : RunState) : (s.setRun r).cfg = s.cfg := rfl
@[simp] theorem State.setRun_regs (r : RunState) : (s.setRun r).regs = s.regs := rfl

@[simp] theorem State.setAnswers_pc (l : List (Option Byte)) : (s.setAnswers l).pc = s.pc := rfl
@[simp] theorem State.setAnswers_cond (l : List (Option Byte)) : (s.setAnswers l).cond = s.cond := rfl
@[simp] theorem State.setAnswers_mem (l : List (Option Byte)) : (s.setAnswers l).mem = s.mem := rfl
@[simp] theorem State.setAnswers_run (l : List (Option Byte)) : (s.setAnswers l).run = s.run := rfl
@[simp] theorem State.setAnswers_console (l : List (Option Byte)) : (s.setAnswers l).console = { s.console with answers := l } := rfl
@[simp] theorem State.setAnswers_cfg (l : List (Option Byte)) : (s.setAnswers l).cfg = s.cfg := rfl
@[simp] theorem State.setAnswers_regs (l : List (Option Byte)) : (s.setAnswers l).regs = s.regs := rfl

@[simp] theorem State.consoleOut_pc (cs : List Byte) : (s.consoleOut cs).pc = s.pc := rfl
@[simp] theorem State.consoleOut_cond (cs : List Byte) : (s.consoleOut cs).cond = s.cond := rfl
@[simp] theorem State.consoleOut_mem (cs : List Byte) : (s.consoleOut cs).mem = s.mem := rfl
@[simp] theorem State.consoleOut_run (cs : List Byte) : (s.consoleOut cs).run = s.run := rfl
@[simp] theorem State.consoleOut_console (cs : List Byte) : (s.consoleOut cs).console = { s.console with output := s.console.output ++ cs } := rfl
@[simp] theorem State.consoleOut_cfg (cs : List Byte) : (s.consoleOut cs).cfg = s.cfg := rfl
@[simp] theorem State.consoleOut_regs (cs : List Byte) : (s.consoleOut cs).regs = s.regs := rfl

@[simp] theorem State.writeDest_pc (d : Reg) (v : Word) : (s.writeDest d v).pc = s.pc := rfl
@[simp] theorem State.writeDest_cond (d : Reg) (v : Word) : (s.writeDest d v).cond = setcc v := rfl
@[simp] theorem State.writeDest_mem (d : Reg) (v : Word) : (s.writeDest d v).mem = s.mem := rfl
@[simp] theorem State.writeDest_run (d : Reg) (v : Word) : (s.writeDest d v).run = s.run := rfl
@[simp] theorem State.writeDest_console (d : Reg) (v : Word) : (s.writeDest d v).console = s.console := rfl
@[simp] theorem State.writeDest_cfg (d : Reg) (v : Word) : (s.writeDest d v).cfg = s.cfg := rfl
@[simp] theorem State.writeDest_regs (d : Reg) (v : Word) : (s.writeDest d v).regs = s.regs.set d v := rfl

@[simp] theorem memWrite_pc (a v : Word) : (memWrite a v s).pc = s.pc := rfl
@[simp] theorem memWrite_cond (a v : Word) : (memWrite a v s).cond = s.cond := rfl
@[simp] theorem memWrite_mem (a v : Word) : (memWrite a v s).mem = s.mem.write a v := rfl
@[simp] theorem memWrite_run (a v : Word) : (memWrite a v s).run = s.run := rfl
@[simp] theorem memWrite_console (a v : Word) : (memWrite a v s).console = s.console := rfl
@[simp] theorem memWrite_cfg (a v : Word) : (memWrite a v s).cfg = s.cfg := rfl
@[simp] theorem memWrite_regs (a v : Word) : (memWrite a v s).regs = s.regs := rfl

@[simp] theorem raiseFatal_pc (k : FatalKind) : (raiseFatal k s).pc = s.pc := rfl
@[simp] theorem raiseFatal_cond (k : FatalKind) : (raiseFatal k s).cond = s.cond := rfl
@[simp] theorem raiseFatal_mem (k : FatalKind) : (raiseFatal k s).mem = s.mem := rfl
@[simp] theorem raiseFatal_run (k : FatalKind) : (raiseFatal k s).run = .dead k := rfl
@[simp] theorem raiseFatal_console (k : FatalKind) : (raiseFatal k s).console = s.console := rfl
@[simp] theorem raiseFatal_cfg (k : FatalKind) : (raiseFatal k s).cfg = s.cfg := rfl
@[simp] theorem raiseFatal_regs (k : FatalKind) : (raiseFatal k s).regs = s.regs := rfl

@[simp] theorem haltRun_pc : (haltRun s).pc = s.pc := rfl
@[simp] theorem haltRun_cond : (haltRun s).cond = s.cond := rfl
@[simp] theorem haltRun_mem : (haltRun s).mem = s.mem := rfl
@[simp] theorem haltRun_run : (haltRun s).run = .halted := rfl
@[simp] theorem haltRun_console : (haltRun s).console = s.console := rfl
@[simp] theorem haltRun_cfg : (haltRun s).cfg = s.cfg := rfl
@[simp] theorem haltRun_regs : (haltRun s).regs = s.regs := rfl

@[simp] theorem linkTrap_pc : (linkTrap s).pc = s.pc := rfl
@[simp] theorem linkTrap_cond : (linkTrap s).cond = s.cond := rfl
@[simp] theorem linkTrap_mem : (linkTrap s).mem = s.mem := rfl
@[simp] theorem linkTrap_run : (linkTrap s).run = s.run := rfl
@[simp] theorem linkTrap_console : (linkTrap s).console = s.console := rfl
@[simp] theorem linkTrap_cfg : (linkTrap s).cfg = s.cfg := rfl
@[simp] theorem linkTrap_regs : (linkTrap s).regs = s.regs.set .r7 (if s.cfg.trapLinksR7 then s.pc else s.reg .r7) := rfl

/-- `x[i]` after `x[i] <- v`, and every other register as before (10_state.md R21). -/
@[simp] theorem Regs.get_set (x : Regs) (i j : Reg) (v : Word) : (x.set i v).get j = if j = i then v else x.get j := by
  cases i <;> cases j <;> rfl

/-- Writing a register its own value changes nothing. -/
@[simp] theorem Regs.set_get (x : Regs) (i : Reg) : x.set i (x.get i) = x := by
  cases i <;> rfl

/-- Two register files with the same eight values are the same. -/
theorem Regs.ext_get {x y : Regs} (h : ∀ i, x.get i = y.get i) : x = y := by
  cases x; cases y
  have h0 := h .r0; have h1 := h .r1; have h2 := h .r2; have h3 := h .r3
  have h4 := h .r4; have h5 := h .r5; have h6 := h .r6; have h7 := h .r7
  simp only [Regs.get] at h0 h1 h2 h3 h4 h5 h6 h7
  simp [*]

@[simp] theorem State.setReg_reg (i j : Reg) (v : Word) : (s.setReg i v).reg j = if j = i then v else s.reg j :=
  Regs.get_set s.regs i j v

@[simp] theorem State.writeDest_reg (d j : Reg) (v : Word) : (s.writeDest d v).reg j = if j = d then v else s.reg j :=
  Regs.get_set s.regs d j v

@[simp] theorem State.setPc_reg (v : Word) (j : Reg) : (s.setPc v).reg j = s.reg j := rfl
@[simp] theorem State.setCond_reg (c : Cond) (j : Reg) : (s.setCond c).reg j = s.reg j := rfl
@[simp] theorem State.setMem_reg (m : Memory) (j : Reg) : (s.setMem m).reg j = s.reg j := rfl
@[simp] theorem State.setRun_reg (r : RunState) (j : Reg) : (s.setRun r).reg j = s.reg j := rfl
@[simp] theorem State.setAnswers_reg (l : List (Option Byte)) (j : Reg) : (s.setAnswers l).reg j = s.reg j := rfl
@[simp] theorem State.consoleOut_reg (cs : List Byte) (j : Reg) : (s.consoleOut cs).reg j = s.reg j := rfl
@[simp] theorem memWrite_reg (a v : Word) (j : Reg) : (memWrite a v s).reg j = s.reg j := rfl
@[simp] theorem raiseFatal_reg (k : FatalKind) (j : Reg) : (raiseFatal k s).reg j = s.reg j := rfl
@[simp] theorem haltRun_reg (j : Reg) : (haltRun s).reg j = s.reg j := rfl

/-- R7 after the link of a TRAP, for both values of `TRAP_LINKS_R7`; every other register as before (43_trap.md R182). -/
@[simp] theorem linkTrap_reg (j : Reg) :
    (linkTrap s).reg j = if j = .r7 then (if s.cfg.trapLinksR7 then s.pc else s.reg .r7) else s.reg j :=
  Regs.get_set s.regs .r7 j _

/-- With `TRAP_LINKS_R7` false a TRAP does not touch R7 (43_trap.md R182). -/
theorem linkTrap_of_not_links (h : s.cfg.trapLinksR7 = false) : linkTrap s = s := by
  simp [linkTrap, h, State.setReg, State.reg]

/-- With `TRAP_LINKS_R7` true a TRAP writes the incremented `pc` to R7 (43_trap.md R182). -/
theorem linkTrap_of_links (h : s.cfg.trapLinksR7 = true) : linkTrap s = s.setReg .r7 s.pc := by
  simp [linkTrap, h]

end Sys2Proof.Machine
end

