-- ==== Sys2Proof/Laws/Ops.lean ====
section
/-! SUPPORT. One lemma for each shared operation that says everything it can do; later proofs cite these and never unfold the operation. -/

namespace Sys2Proof.Machine

/-! ## `ConsoleIn()` -/

theorem consoleIn_of_listed {s : State} {a : Option Byte} {later : List (Option Byte)} (h : s.console.answers = a :: later) :
    consoleIn s = .ok (a, s.setAnswers later) := by
  simp [consoleIn, h]

theorem consoleIn_of_repeats {s : State} {a : Option Byte} (h : s.console.answers = []) (hr : s.console.rest = .repeats a) :
    consoleIn s = .ok (a, s) := by
  simp [consoleIn, h, hr]

theorem consoleIn_of_silent {s : State} (h : s.console.answers = []) (hr : s.console.rest = .silent) :
    consoleIn s = .error (.consoleNeverAnswers s) := by
  simp [consoleIn, h, hr]

/-- Everything `ConsoleIn()` can do: take the first listed answer, repeat the port's last one, or never answer. -/
theorem consoleIn_cases (s : State) :
    (∃ a later, s.console.answers = a :: later ∧ consoleIn s = .ok (a, s.setAnswers later)) ∨
    (∃ a, s.console.answers = [] ∧ s.console.rest = .repeats a ∧ consoleIn s = .ok (a, s)) ∨
    (s.console.answers = [] ∧ s.console.rest = .silent ∧ consoleIn s = .error (.consoleNeverAnswers s)) := by
  cases h : s.console.answers with
  | cons a later => exact .inl ⟨a, later, rfl, consoleIn_of_listed h⟩
  | nil =>
    cases hr : s.console.rest with
    | repeats a => exact .inr (.inl ⟨a, rfl, rfl, consoleIn_of_repeats h hr⟩)
    | silent => exact .inr (.inr ⟨rfl, rfl, consoleIn_of_silent h hr⟩)

/-- An answered `ConsoleIn()` changes nothing but the list of answers, which loses its first. -/
theorem consoleIn_ok {s t : State} {a : Option Byte} (h : consoleIn s = .ok (a, t)) :
    t = s.setAnswers s.console.answers.tail := by
  rcases consoleIn_cases s with ⟨a', later, ha, hc⟩ | ⟨a', ha, hr, hc⟩ | ⟨ha, hr, hc⟩ <;> rw [hc] at h
  · simp only [Except.ok.injEq, Prod.mk.injEq] at h
    simp [← h.2, ha]
  · simp only [Except.ok.injEq, Prod.mk.injEq] at h
    rw [← h.2, ha, List.tail_nil, ← ha]
    rfl
  · cases h

/-! ## The poll and the memory primitives -/

theorem poll_of_char {s t : State} {c : Byte} (h : consoleIn s = .ok (some c, t)) :
    poll s = .ok (t.setMem ((t.mem.write t.cfg.kbsrAddr 0x8000#16).write t.cfg.kbdrAddr (zext c))) := by
  simp [poll, h]

theorem poll_of_none {s t : State} (h : consoleIn s = .ok (none, t)) :
    poll s = .ok (t.setMem (t.mem.write t.cfg.kbsrAddr 0x0000#16)) := by
  simp [poll, h]

theorem poll_of_error {s : State} {f : Fault} (h : consoleIn s = .error f) : poll s = .error f := by
  simp [poll, h]

/-- An answered poll: the console is asked once, and memory is written at the device words only (20_memory.md R55). -/
theorem poll_ok {s t : State} (h : poll s = .ok t) :
    ∃ a, consoleIn s = .ok (a, s.setAnswers s.console.answers.tail) ∧
      t = (s.setAnswers s.console.answers.tail).setMem
        (match a with
          | some c => (s.mem.write s.cfg.kbsrAddr 0x8000#16).write s.cfg.kbdrAddr (zext c)
          | none => s.mem.write s.cfg.kbsrAddr 0x0000#16) := by
  cases hc : consoleIn s with
  | error f => rw [poll_of_error hc] at h; cases h
  | ok r =>
    obtain ⟨a, u⟩ := r
    have hu := consoleIn_ok hc
    subst hu
    cases a with
    | none => rw [poll_of_none hc] at h; cases h; exact ⟨none, rfl, rfl⟩
    | some c => rw [poll_of_char hc] at h; cases h; exact ⟨some c, rfl, rfl⟩

/-- A read of any address but `KBSR_ADDR` returns the word and changes nothing (20_memory.md R52). -/
theorem memRead_plain {a : Word} {s : State} (h : a ≠ s.cfg.kbsrAddr) : memRead a s = .ok (s.mem.read a, s) := by
  simp [memRead, h]

theorem memRead_status {s t : State} (h : poll s = .ok t) :
    memRead s.cfg.kbsrAddr s = .ok (t.mem.read s.cfg.kbsrAddr, t) := by
  simp [memRead, h]

theorem memRead_status_error {s : State} {f : Fault} (h : poll s = .error f) : memRead s.cfg.kbsrAddr s = .error f := by
  simp [memRead, h]

/-- Everything an answered read can do: nothing, or one poll when the address is `KBSR_ADDR`; the word is the one after it. -/
theorem memRead_ok {a w : Word} {s t : State} (h : memRead a s = .ok (w, t)) :
    w = t.mem.read a ∧ ((a ≠ s.cfg.kbsrAddr ∧ t = s) ∨ (a = s.cfg.kbsrAddr ∧ poll s = .ok t)) := by
  by_cases ha : a = s.cfg.kbsrAddr
  · subst ha
    cases hp : poll s with
    | error f => rw [memRead_status_error hp] at h; cases h
    | ok u => rw [memRead_status hp] at h; cases h; exact ⟨rfl, .inr ⟨rfl, rfl⟩⟩
  · rw [memRead_plain ha] at h
    cases h
    exact ⟨rfl, .inl ⟨ha, rfl⟩⟩

/-- What no read changes: registers, `pc`, `cond`, `run`, the parameters, the output, and how the port goes on. -/
structure KeepsCore (s t : State) : Prop where
  regs : t.regs = s.regs
  pc : t.pc = s.pc
  cond : t.cond = s.cond
  run : t.run = s.run
  cfg : t.cfg = s.cfg
  output : t.console.output = s.console.output
  rest : t.console.rest = s.console.rest

theorem poll_keeps {s t : State} (h : poll s = .ok t) : KeepsCore s t := by
  obtain ⟨a, -, rfl⟩ := poll_ok h
  exact ⟨rfl, rfl, rfl, rfl, rfl, rfl, rfl⟩

theorem memRead_keeps {a w : Word} {s t : State} (h : memRead a s = .ok (w, t)) : KeepsCore s t := by
  rcases (memRead_ok h).2 with ⟨-, rfl⟩ | ⟨-, hp⟩
  · exact ⟨rfl, rfl, rfl, rfl, rfl, rfl, rfl⟩
  · exact poll_keeps hp

/-- A poll keeps the canonical form of the memory. -/
theorem poll_wf {s t : State} (hm : Memory.wf s.mem = true) (h : poll s = .ok t) : Memory.wf t.mem = true := by
  obtain ⟨a, -, rfl⟩ := poll_ok h
  cases a with
  | none => exact Memory.write_wf hm _ _
  | some c => exact Memory.write_wf (Memory.write_wf hm _ _) _ _

theorem memRead_wf {a w : Word} {s t : State} (hm : Memory.wf s.mem = true) (h : memRead a s = .ok (w, t)) :
    Memory.wf t.mem = true := by
  rcases (memRead_ok h).2 with ⟨-, rfl⟩ | ⟨-, hp⟩
  · exact hm
  · exact poll_wf hm hp

/-- Everything an unanswered read can be: the port never answers the poll of `KBSR_ADDR`, and the state is as it was. -/
theorem memRead_error {a : Word} {s : State} {f : Fault} (h : memRead a s = .error f) :
    a = s.cfg.kbsrAddr ∧ consoleIn s = .error (.consoleNeverAnswers s) ∧ f = .consoleNeverAnswers s := by
  by_cases ha : a = s.cfg.kbsrAddr
  · subst ha
    rcases consoleIn_cases s with ⟨a', later, -, hc⟩ | ⟨a', -, -, hc⟩ | ⟨-, -, hc⟩
    · cases a' with
      | some c => rw [memRead_status (poll_of_char hc)] at h; cases h
      | none => rw [memRead_status (poll_of_none hc)] at h; cases h
    · cases a' with
      | some c => rw [memRead_status (poll_of_char hc)] at h; cases h
      | none => rw [memRead_status (poll_of_none hc)] at h; cases h
    · rw [memRead_status_error (poll_of_error hc)] at h
      cases h
      exact ⟨rfl, hc, rfl⟩
  · rw [memRead_plain ha] at h; cases h

theorem memWrite_wf {s : State} (hm : Memory.wf s.mem = true) (a v : Word) : Memory.wf (memWrite a v s).mem = true :=
  Memory.write_wf hm a v

theorem withRead_of_ok {a w : Word} {s t : State} (h : memRead a s = .ok (w, t)) (next : Word → State → Outcome) :
    withRead a s next = next w t := by
  simp [withRead, h]

theorem withRead_of_error {a : Word} {s : State} {f : Fault} (h : memRead a s = .error f) (next : Word → State → Outcome) :
    withRead a s next = .fault f := by
  simp [withRead, h]

/-- If a read and what follows answer a next state, the read was answered. -/
theorem withRead_next {a : Word} {s u : State} {next : Word → State → Outcome} (h : withRead a s next = .next u) :
    ∃ w t, memRead a s = .ok (w, t) ∧ next w t = .next u := by
  cases hr : memRead a s with
  | error f => rw [withRead_of_error hr] at h; cases h
  | ok r =>
    obtain ⟨w, t⟩ := r
    rw [withRead_of_ok hr] at h
    exact ⟨w, t, rfl, h⟩

/-! ## Fetch, and the console read of GETC and IN -/

theorem fetch_plain {s : State} (h : s.pc ≠ s.cfg.kbsrAddr) : fetch s = .ok (s.mem.read s.pc, s.setPc (s.pc + 1#16)) := by
  simp [fetch, memRead_plain h]

/-- An answered fetch: a read at `pc`, then the increment (10_state.md R33). -/
theorem fetch_ok {s t : State} {ir : Word} (h : fetch s = .ok (ir, t)) :
    ∃ u, memRead s.pc s = .ok (ir, u) ∧ t = u.setPc (s.pc + 1#16) := by
  cases hr : memRead s.pc s with
  | error f => simp [fetch, hr] at h
  | ok r =>
    obtain ⟨w, u⟩ := r
    simp only [fetch, hr, Except.ok.injEq, Prod.mk.injEq] at h
    exact ⟨u, by rw [h.1], by rw [← h.2, (memRead_keeps hr).pc]⟩

/-- If GETC's or IN's read and what follows answer a next state, a character came. -/
theorem readChar_next {s u : State} {next : Byte → State → Outcome} (h : readChar s next = .next u) :
    ∃ c, consoleIn s = .ok (some c, s.setAnswers s.console.answers.tail) ∧
      next c (s.setAnswers s.console.answers.tail) = .next u := by
  cases hc : consoleIn s with
  | error f => simp [readChar, hc] at h
  | ok r =>
    obtain ⟨a, t⟩ := r
    have ht := consoleIn_ok hc
    subst ht
    cases a with
    | none => simp [readChar, hc] at h
    | some c => exact ⟨c, rfl, by simpa [readChar, hc] using h⟩

/-! ## The string loop -/

/-- What the string loop keeps when it ends: everything but memory (its device words), the answers and the output. -/
structure KeepsButConsole (s t : State) : Prop where
  regs : t.regs = s.regs
  pc : t.pc = s.pc
  cond : t.cond = s.cond
  run : t.run = s.run
  cfg : t.cfg = s.cfg
  rest : t.console.rest = s.console.rest

/-- A relation that every answered read and every output keep holds between the start and the end of the string loop: the one induction over
the loop, for every invariant of PUTS and PUTSP. -/
theorem printPass_next (P : State → State → Prop)
    (hread : ∀ s t u a w, P s t → memRead a t = .ok (w, u) → P s u)
    (hout : ∀ s t cs, P s t → P s (t.consoleOut cs))
    {chars : Word → List Byte} {later : Word → State → Outcome}
    (hlater : ∀ s t a u, P s t → later a t = .next u → P s u) :
    ∀ (n : Nat) (s t : State) (a : Word) (u : State), P s t → printPass chars later n a t = .next u → P s u := by
  intro n
  induction n with
  | zero => intro s t a u hp h; exact hlater s t a u hp h
  | succ n ih =>
    intro s t a u hp h
    cases hr : memRead a t with
    | error f => simp [printPass, hr] at h
    | ok r =>
      obtain ⟨w, v⟩ := r
      simp only [printPass, hr] at h
      split at h
      · cases h; exact hread s t _ a w hp hr
      · exact ih s _ _ u (hout _ _ _ (hread s t v a w hp hr)) h

theorem printPasses_next (P : State → State → Prop)
    (hread : ∀ s t u a w, P s t → memRead a t = .ok (w, u) → P s u)
    (hout : ∀ s t cs, P s t → P s (t.consoleOut cs)) {chars : Word → List Byte} :
    ∀ (p : Nat) (s t : State) (a : Word) (u : State), P s t → printPasses chars p a t = .next u → P s u := by
  intro p
  induction p with
  | zero => intro s t a u _ h; cases h
  | succ p ih =>
    intro s t a u hp h
    exact printPass_next P hread hout (fun s t a u => ih s t a u) 65536 s t a u hp h

/-- The string loop run from two related states: a relation that every read carries over, with the same word, and every output keeps, holds where the two
loops end, after the same passes. -/
theorem printPass_related (R : State → State → Prop)
    (hread : ∀ s t u a w, R s t → memRead a s = .ok (w, u) → ∃ v, memRead a t = .ok (w, v) ∧ R u v)
    (hout : ∀ s t cs, R s t → R (s.consoleOut cs) (t.consoleOut cs))
    {chars : Word → List Byte} {later later' : Word → State → Outcome}
    (hlater : ∀ s t a u, R s t → later a s = .next u → ∃ v, later' a t = .next v ∧ R u v) :
    ∀ (n : Nat) (s t : State) (a : Word) (u : State), R s t → printPass chars later n a s = .next u →
      ∃ v, printPass chars later' n a t = .next v ∧ R u v := by
  intro n
  induction n with
  | zero => intro s t a u hR h; exact hlater s t a u hR h
  | succ n ih =>
    intro s t a u hR h
    cases hr : memRead a s with
    | error f => simp [printPass, hr] at h
    | ok r =>
      obtain ⟨w, s'⟩ := r
      obtain ⟨t', ht, hR'⟩ := hread s t s' a w hR hr
      simp only [printPass, hr] at h
      simp only [printPass, ht]
      split at h
      · rename_i hw
        cases h
        exact ⟨t', by rw [if_pos hw], hR'⟩
      · rename_i hw
        obtain ⟨v, hv, hRv⟩ := ih _ _ _ u (hout _ _ (chars w) hR') h
        exact ⟨v, by rw [if_neg hw]; exact hv, hRv⟩

theorem printPasses_related (R : State → State → Prop)
    (hread : ∀ s t u a w, R s t → memRead a s = .ok (w, u) → ∃ v, memRead a t = .ok (w, v) ∧ R u v)
    (hout : ∀ s t cs, R s t → R (s.consoleOut cs) (t.consoleOut cs)) {chars : Word → List Byte} :
    ∀ (p : Nat) (s t : State) (a : Word) (u : State), R s t → printPasses chars p a s = .next u →
      ∃ v, printPasses chars p a t = .next v ∧ R u v := by
  intro p
  induction p with
  | zero => intro s t a u _ h; cases h
  | succ p ih =>
    intro s t a u hR h
    exact printPass_related R hread hout (fun s t a u hR h => ih s t a u hR h) 65536 s t a u hR h

/-- The loop of PUTS and PUTSP from two related states with equal R0 and as many answers listed. -/
theorem printString_related (R : State → State → Prop)
    (hread : ∀ s t u a w, R s t → memRead a s = .ok (w, u) → ∃ v, memRead a t = .ok (w, v) ∧ R u v)
    (hout : ∀ s t cs, R s t → R (s.consoleOut cs) (t.consoleOut cs)) {chars : Word → List Byte} {s t u : State} (hR : R s t)
    (h0 : t.reg .r0 = s.reg .r0) (ha : t.console.answers = s.console.answers) (h : printString chars s = .next u) :
    ∃ v, printString chars t = .next v ∧ R u v := by
  have hp : passesToDecide t = passesToDecide s := by simp [passesToDecide, ha]
  obtain ⟨v, hv, hRv⟩ := printPasses_related R hread hout _ s t _ u hR h
  exact ⟨v, by rw [printString, hp, h0]; exact hv, hRv⟩

/-- Every way the string loop can fail to end: the port never answers a poll, or the passes are used up; what every read and every output keep holds of the
state it had reached. -/
theorem printPass_fault (P : State → State → Prop)
    (hread : ∀ s t u a w, P s t → memRead a t = .ok (w, u) → P s u)
    (hout : ∀ s t cs, P s t → P s (t.consoleOut cs))
    {chars : Word → List Byte} {later : Word → State → Outcome}
    (hlater : ∀ s t a f, P s t → later a t = .fault f → ∃ u, (f = .consoleNeverAnswers u ∨ f = .stringNeverEnds u) ∧ P s u) :
    ∀ (n : Nat) (s t : State) (a : Word) (f : Fault), P s t → printPass chars later n a t = .fault f →
      ∃ u, (f = .consoleNeverAnswers u ∨ f = .stringNeverEnds u) ∧ P s u := by
  intro n
  induction n with
  | zero => intro s t a f hp h; exact hlater s t a f hp h
  | succ n ih =>
    intro s t a f hp h
    cases hr : memRead a t with
    | error g =>
      simp only [printPass, hr] at h
      cases h
      exact ⟨t, .inl (memRead_error hr).2.2, hp⟩
    | ok r =>
      obtain ⟨w, v⟩ := r
      simp only [printPass, hr] at h
      split at h
      · cases h
      · exact ih s _ _ f (hout _ _ _ (hread s t v a w hp hr)) h

theorem printPasses_fault (P : State → State → Prop)
    (hread : ∀ s t u a w, P s t → memRead a t = .ok (w, u) → P s u)
    (hout : ∀ s t cs, P s t → P s (t.consoleOut cs)) {chars : Word → List Byte} :
    ∀ (p : Nat) (s t : State) (a : Word) (f : Fault), P s t → printPasses chars p a t = .fault f →
      ∃ u, (f = .consoleNeverAnswers u ∨ f = .stringNeverEnds u) ∧ P s u := by
  intro p
  induction p with
  | zero => intro s t a f hp h; cases h; exact ⟨t, .inr rfl, hp⟩
  | succ p ih =>
    intro s t a f hp h
    exact printPass_fault P hread hout (fun s t a f => ih s t a f) 65536 s t a f hp h

/-- The string loop never refuses. -/
theorem printPass_refused {chars : Word → List Byte} {later : Word → State → Outcome} {r : Refusal}
    (hlater : ∀ a t, later a t ≠ .refused r) : ∀ (n : Nat) (a : Word) (t : State), printPass chars later n a t ≠ .refused r := by
  intro n
  induction n with
  | zero => intro a t h; exact hlater a t h
  | succ n ih =>
    intro a t h
    cases hr : memRead a t with
    | error f => simp [printPass, hr] at h
    | ok q =>
      simp only [printPass, hr] at h
      split at h
      · cases h
      · exact ih _ _ h

theorem printPasses_refused {chars : Word → List Byte} {r : Refusal} :
    ∀ (p : Nat) (a : Word) (t : State), printPasses chars p a t ≠ .refused r := by
  intro p
  induction p with
  | zero => intro a t h; cases h
  | succ p ih => exact fun a t => printPass_refused ih 65536 a t

/-- What the string loop keeps. -/
theorem printString_keeps {chars : Word → List Byte} {s u : State} (h : printString chars s = .next u) :
    KeepsButConsole s u := by
  refine printPasses_next KeepsButConsole ?_ ?_ _ s s _ u
    ⟨rfl, rfl, rfl, rfl, rfl, rfl⟩ h
  · intro s t v a w hp hr
    have k := memRead_keeps hr
    exact ⟨k.regs.trans hp.regs, k.pc.trans hp.pc, k.cond.trans hp.cond, k.run.trans hp.run, k.cfg.trans hp.cfg,
      k.rest.trans hp.rest⟩
  · intro s t cs hp
    exact ⟨hp.regs, hp.pc, hp.cond, hp.run, hp.cfg, hp.rest⟩

theorem printString_wf {chars : Word → List Byte} {s u : State} (hm : Memory.wf s.mem = true)
    (h : printString chars s = .next u) : Memory.wf u.mem = true := by
  refine printPasses_next (fun s t => Memory.wf s.mem = true → Memory.wf t.mem = true) ?_ ?_ _ s s _ u id h hm
  · intro s t v a w hp hr hs
    exact memRead_wf (hp hs) hr
  · intro s t cs hp hs
    exact hp hs

end Sys2Proof.Machine
end

