-- ==== Sys2Proof/Laws/Boot.lean ====
section
/-! SUPPORT. The words of an image, and everything storing them can do. -/

namespace Sys2Proof.Machine

/-- A word as a number, from its two bytes (70_reset_and_hazards.md R244: big-endian). -/
theorem toNat_wordOfBytes (hi lo : Byte) : (wordOfBytes hi lo).toNat = hi.toNat * 256 + lo.toNat := by
  have e : (wordOfBytes hi lo).toNat = hi.toNat <<< 8 ||| lo.toNat := BitVec.toNat_append hi lo
  rw [e, ← Nat.shiftLeft_add_eq_or_of_lt lo.isLt, Nat.shiftLeft_eq]

theorem imageWords_length (b : List Byte) : (imageWords b).length = b.length / 2 := by
  induction b using imageWords.induct with
  | case1 hi lo later ih => simp [imageWords, ih]; omega
  | case2 => simp [imageWords]
  | case3 => simp [imageWords]

/-- The word at place `k` of an image is made of its bytes 2k and 2k + 1. -/
theorem imageWords_getElem (b : List Byte) (k : Nat) (h : k < b.length / 2) :
    (imageWords b)[k]'(by rw [imageWords_length]; exact h) = wordOfBytes (b[2 * k]'(by omega)) (b[2 * k + 1]'(by omega)) := by
  induction b using imageWords.induct generalizing k with
  | case1 hi lo later ih =>
    cases k with
    | zero => simp [imageWords]
    | succ k =>
      simp only [imageWords, List.getElem_cons_succ]
      rw [ih k (by simp at h; omega)]
      rfl
  | case2 => simp at h
  | case3 => simp at h

/-- Everything storing the words `ws` from address `a` can do: each word stands at its address, every other word is as before, memory stays canonical, and only memory
changes. `b - a` is how far `b` lies above `a`, wrapping. -/
structure WordsStored (a : Word) (ws : List Word) (s t : State) : Prop where
  words : ∀ b : Word, t.mem.read b = (ws[(b - a).toNat]?).getD (s.mem.read b)
  wf : Memory.wf t.mem = true
  regs : t.regs = s.regs
  pc : t.pc = s.pc
  cond : t.cond = s.cond
  run : t.run = s.run
  console : t.console = s.console
  cfg : t.cfg = s.cfg

theorem loadWords_stores (a : Word) (ws : List Word) (s : State) (hm : Memory.wf s.mem = true) (h : ws.length ≤ 65536) :
    WordsStored a ws s (loadWords a ws s) := by
  induction ws generalizing a s with
  | nil => exact ⟨fun b => rfl, hm, rfl, rfl, rfl, rfl, rfl, rfl⟩
  | cons w later ih =>
    rw [List.length_cons] at h
    have r := ih (a + 1#16) (memWrite a w s) (memWrite_wf hm a w) (by omega)
    refine ⟨fun b => ?_, r.wf, r.regs, r.pc, r.cond, r.run, r.console, r.cfg⟩
    refine (r.words b).trans ?_
    rw [memWrite_mem, Memory.read_write hm]
    by_cases hb : b = a
    · subst hb
      have far : (b - (b + 1#16)).toNat = 65535 := by bv_omega
      rw [far, List.getElem?_eq_none (by omega)]
      simp
    · have near : (b - a).toNat = (b - (a + 1#16)).toNat + 1 := by bv_omega
      rw [near, List.getElem?_cons_succ, if_neg hb]

/-- Everything a load that answers a next state can be: an image with a load address and words that fit. -/
theorem loadImage_next {bytes : List Byte} {s t : State} (hm : Memory.wf s.mem = true) (h : loadImage bytes s = .next t) :
    ∃ hi lo later, bytes = hi :: lo :: later ∧ WordsStored (wordOfBytes hi lo) (imageWords later) s t := by
  match bytes, h with
  | hi :: lo :: later, h =>
    simp only [loadImage] at h
    split at h
    · cases h
      exact ⟨hi, lo, later, rfl, loadWords_stores _ _ s hm (by omega)⟩
    · cases h
  | [_], h => cases h
  | [], h => cases h

end Sys2Proof.Machine
end

