-- ==== Sys2Proof/Laws/Step.lean ====
section
/-! SUPPORT. What a step does, said once. -/

namespace Sys2Proof.Machine

theorem step_of_halted {s : State} (h : s.run = .halted) : step s = .next s := by simp [step, h]

theorem step_of_dead {s : State} {k : FatalKind} (h : s.run = .dead k) : step s = .next s := by simp [step, h]

theorem step_of_fetch {s t : State} {ir : Word} (h : s.run = .running) (hf : fetch s = .ok (ir, t)) :
    step s = exec (decode ir) t := by
  simp [step, h, hf]

theorem step_of_fetch_error {s : State} {f : Fault} (h : s.run = .running) (hf : fetch s = .error f) : step s = .fault f := by
  simp [step, h, hf]

/-- Everything a step that answers a next state can be: the core does not run and the state stays, or a fetched word is executed. -/
theorem step_next {s u : State} (h : step s = .next u) :
    (s.run ≠ .running ∧ u = s) ∨ (s.run = .running ∧ ∃ ir t, fetch s = .ok (ir, t) ∧ exec (decode ir) t = .next u) := by
  cases hr : s.run with
  | running =>
    cases hf : fetch s with
    | error f => rw [step_of_fetch_error hr hf] at h; cases h
    | ok r =>
      obtain ⟨ir, t⟩ := r
      rw [step_of_fetch hr hf] at h
      exact .inr ⟨rfl, ir, t, rfl, h⟩
  | halted => rw [step_of_halted hr] at h; cases h; exact .inl ⟨by simp, rfl⟩
  | dead k => rw [step_of_dead hr] at h; cases h; exact .inl ⟨by simp, rfl⟩

end Sys2Proof.Machine
end

