-- ==== Sys2Proof/Laws/Console.lean ====
section
/-! SUPPORT. `ConsoleIn()` and the poll in the statements' own terms: what the port would answer now. -/

namespace Sys2Proof.Machine

/-- If the port would answer `a`, `ConsoleIn()` answers `a` and takes it from the front. -/
theorem consoleIn_of_nextAnswer {s : State} {a : Option Byte} (h : s.nextAnswer = some a) :
    consoleIn s = .ok (a, s.setAnswers s.console.answers.tail) := by
  rcases consoleIn_cases s with ⟨a', later, ha, hc⟩ | ⟨a', ha, hr, hc⟩ | ⟨ha, hr, hc⟩
  · simp only [State.nextAnswer, ha] at h
    cases h
    rw [hc, ha]; rfl
  · simp only [State.nextAnswer, ha, hr] at h
    cases h
    rw [← consoleIn_ok hc]; exact hc
  · simp [State.nextAnswer, ha, hr] at h

/-- If the port would not answer, `ConsoleIn()` never completes. -/
theorem consoleIn_of_no_nextAnswer {s : State} (h : s.nextAnswer = none) : consoleIn s = .error (.consoleNeverAnswers s) := by
  rcases consoleIn_cases s with ⟨a', later, ha, hc⟩ | ⟨a', ha, hr, hc⟩ | ⟨ha, hr, hc⟩
  · simp [State.nextAnswer, ha] at h
  · simp [State.nextAnswer, ha, hr] at h
  · exact hc

theorem Config.kbsr_ne_kbdr {c : Config} (h : c.wf = true) : c.kbsrAddr ≠ c.kbdrAddr := by
  simpa [Config.wf] using h

/-- One answered poll (20_memory.md R55): the status word, the character if one came, nothing else but one answer taken. -/
theorem poll_answered {s : State} {a : Option Byte} (hm : Memory.wf s.mem = true) (hc : s.cfg.wf = true)
    (h : s.nextAnswer = some a) : ∃ t, poll s = .ok t ∧ Polled s t a := by
  have hne := Config.kbsr_ne_kbdr hc
  have hi := consoleIn_of_nextAnswer h
  cases a with
  | none =>
    exact ⟨_, poll_of_none hi, by simp [Memory.read_write hm, statusWord], by simp,
      fun _ key hk => Memory.readByte_write _ _ _ _ (hk _ (by simp)),
      fun key hk => Memory.readByte_write _ _ _ _ (hk _ (by simp)), rfl, rfl, rfl⟩
  | some c =>
    have hm2 := Memory.write_wf hm s.cfg.kbsrAddr 0x8000#16
    refine ⟨_, poll_of_char hi, ?_, ?_, by simp, ?_, rfl, rfl, rfl⟩
    · simp [Memory.read_write hm, Memory.read_write hm2, statusWord, hne]
    · intro c' h'
      cases h'
      simp [Memory.read_write hm2]
    · intro key hk
      exact (Memory.readByte_write _ s.cfg.kbdrAddr (zext c) key (hk _ (by simp))).trans
        (Memory.readByte_write _ s.cfg.kbsrAddr _ key (hk _ (by simp)))

end Sys2Proof.Machine
end

