-- ==== Sys2Proof/Laws/Decode.lean ====
section
/-! SUPPORT. Register fields and the trap code map: small facts the decoder's proofs cite. -/

namespace Sys2Proof

@[simp] theorem Reg.ofBits_bits (r : Reg) : Reg.ofBits r.bits = r := by cases r <;> rfl

@[simp] theorem Reg.bits_ofBits (b : BitVec 3) : (Reg.ofBits b).bits = b := by revert b; decide

@[simp] theorem routineOfCode_code (r : TrapRoutine) : routineOfCode r.code = some r := by cases r <;> rfl

/-- A code selects no routine exactly when it is outside 0x20 to 0x25 (30_encoding.md R92). -/
theorem routineOfCode_eq_none (v : BitVec 8) : routineOfCode v = none ↔ definedTrapCode v = false := by
  revert v; decide

/-- A field of two joined bit vectors that lies in the low one. -/
theorem extract_append_low {n m : Nat} (x : BitVec n) (y : BitVec m) (lo len : Nat) (h : lo + len ≤ m) :
    (x ++ y).extractLsb' lo len = y.extractLsb' lo len := by
  ext i hi
  rw [BitVec.getElem_extractLsb', BitVec.getElem_extractLsb', BitVec.getLsbD_append]
  simp [show lo + i < m by omega]

/-- A field of two joined bit vectors that lies in the high one. -/
theorem extract_append_high {n m : Nat} (x : BitVec n) (y : BitVec m) (lo len : Nat) (h : m ≤ lo) :
    (x ++ y).extractLsb' lo len = x.extractLsb' (lo - m) len := by
  ext i hi
  rw [BitVec.getElem_extractLsb', BitVec.getElem_extractLsb', BitVec.getLsbD_append]
  simp [show ¬ lo + i < m by omega, show lo + i - m = lo - m + i by omega]

/-! ## The bits and fields of the layouts -/

theorem getLsbD_append_low {n m : Nat} (x : BitVec n) (y : BitVec m) (i : Nat) (h : i < m) :
    (x ++ y).getLsbD i = y.getLsbD i := by
  rw [BitVec.getLsbD_append]; simp [h]

theorem getLsbD_append_high {n m : Nat} (x : BitVec n) (y : BitVec m) (i : Nat) (h : m ≤ i) :
    (x ++ y).getLsbD i = x.getLsbD (i - m) := by
  rw [BitVec.getLsbD_append]; simp [show ¬ i < m by omega]

section Layouts

variable (op : BitVec 4) (hi mid : BitVec 3) (low6 : BitVec 6) (low9 : BitVec 9) (flag : BitVec 1) (low11 : BitVec 11) (unused : BitVec 4)
  (low8 : BitVec 8)

/-- A bit of a layout's low field. -/
theorem layoutMB_low (i : Nat) (h : i < 6) : (layoutMB op hi mid low6).getLsbD i = low6.getLsbD i :=
  getLsbD_append_low (op ++ hi ++ mid) low6 i h

/-- An opcode bit, or a bit of the field at 11:9, of the two-register layout. -/
theorem layoutMB_high (i : Nat) (h : 9 ≤ i) : (layoutMB op hi mid low6).getLsbD i = (op ++ hi).getLsbD (i - 9) := by
  refine (getLsbD_append_high (op ++ hi ++ mid) low6 i (by omega)).trans ?_
  refine (getLsbD_append_high (op ++ hi) mid (i - 6) (by omega)).trans ?_
  congr 1

theorem layoutMP_high (i : Nat) (h : 9 ≤ i) : (layoutMP op hi low9).getLsbD i = (op ++ hi).getLsbD (i - 9) :=
  getLsbD_append_high (op ++ hi) low9 i h

theorem layoutJL_high (i : Nat) (h : 11 ≤ i) : (layoutJL op flag low11).getLsbD i = (op ++ flag).getLsbD (i - 11) :=
  getLsbD_append_high (op ++ flag) low11 i h

theorem layoutTV_high (i : Nat) (h : 8 ≤ i) : (layoutTV op unused low8).getLsbD i = (op ++ unused).getLsbD (i - 8) :=
  getLsbD_append_high (op ++ unused) low8 i h

@[simp] theorem layoutMB_15 : bit (layoutMB op hi mid low6) 15 = op.getLsbD 3 := by
  rw [bit, layoutMB_high _ _ _ _ _ (by omega), getLsbD_append_high op hi _ (by omega)]

@[simp] theorem layoutMB_14 : bit (layoutMB op hi mid low6) 14 = op.getLsbD 2 := by
  rw [bit, layoutMB_high _ _ _ _ _ (by omega), getLsbD_append_high op hi _ (by omega)]

@[simp] theorem layoutMB_13 : bit (layoutMB op hi mid low6) 13 = op.getLsbD 1 := by
  rw [bit, layoutMB_high _ _ _ _ _ (by omega), getLsbD_append_high op hi _ (by omega)]

@[simp] theorem layoutMB_12 : bit (layoutMB op hi mid low6) 12 = op.getLsbD 0 := by
  rw [bit, layoutMB_high _ _ _ _ _ (by omega), getLsbD_append_high op hi _ (by omega)]

@[simp] theorem layoutMB_11 : bit (layoutMB op hi mid low6) 11 = hi.getLsbD 2 := by
  rw [bit, layoutMB_high _ _ _ _ _ (by omega), getLsbD_append_low op hi _ (by omega)]

theorem layoutMB_5 : bit (layoutMB op hi mid low6) 5 = low6.getLsbD 5 := layoutMB_low _ _ _ _ 5 (by omega)

@[simp] theorem layoutMP_15 : bit (layoutMP op hi low9) 15 = op.getLsbD 3 := by
  rw [bit, layoutMP_high _ _ _ _ (by omega), getLsbD_append_high op hi _ (by omega)]

@[simp] theorem layoutMP_14 : bit (layoutMP op hi low9) 14 = op.getLsbD 2 := by
  rw [bit, layoutMP_high _ _ _ _ (by omega), getLsbD_append_high op hi _ (by omega)]

@[simp] theorem layoutMP_13 : bit (layoutMP op hi low9) 13 = op.getLsbD 1 := by
  rw [bit, layoutMP_high _ _ _ _ (by omega), getLsbD_append_high op hi _ (by omega)]

@[simp] theorem layoutMP_12 : bit (layoutMP op hi low9) 12 = op.getLsbD 0 := by
  rw [bit, layoutMP_high _ _ _ _ (by omega), getLsbD_append_high op hi _ (by omega)]

@[simp] theorem layoutJL_15 : bit (layoutJL op flag low11) 15 = op.getLsbD 3 := by
  rw [bit, layoutJL_high _ _ _ _ (by omega), getLsbD_append_high op flag _ (by omega)]

@[simp] theorem layoutJL_14 : bit (layoutJL op flag low11) 14 = op.getLsbD 2 := by
  rw [bit, layoutJL_high _ _ _ _ (by omega), getLsbD_append_high op flag _ (by omega)]

@[simp] theorem layoutJL_13 : bit (layoutJL op flag low11) 13 = op.getLsbD 1 := by
  rw [bit, layoutJL_high _ _ _ _ (by omega), getLsbD_append_high op flag _ (by omega)]

@[simp] theorem layoutJL_12 : bit (layoutJL op flag low11) 12 = op.getLsbD 0 := by
  rw [bit, layoutJL_high _ _ _ _ (by omega), getLsbD_append_high op flag _ (by omega)]

@[simp] theorem layoutJL_11 : bit (layoutJL op flag low11) 11 = flag.getLsbD 0 := by
  rw [bit, layoutJL_high _ _ _ _ (by omega), getLsbD_append_low op flag _ (by omega)]

@[simp] theorem layoutTV_15 : bit (layoutTV op unused low8) 15 = op.getLsbD 3 := by
  rw [bit, layoutTV_high _ _ _ _ (by omega), getLsbD_append_high op unused _ (by omega)]

@[simp] theorem layoutTV_14 : bit (layoutTV op unused low8) 14 = op.getLsbD 2 := by
  rw [bit, layoutTV_high _ _ _ _ (by omega), getLsbD_append_high op unused _ (by omega)]

@[simp] theorem layoutTV_13 : bit (layoutTV op unused low8) 13 = op.getLsbD 1 := by
  rw [bit, layoutTV_high _ _ _ _ (by omega), getLsbD_append_high op unused _ (by omega)]

@[simp] theorem layoutTV_12 : bit (layoutTV op unused low8) 12 = op.getLsbD 0 := by
  rw [bit, layoutTV_high _ _ _ _ (by omega), getLsbD_append_high op unused _ (by omega)]

@[simp] theorem field_layoutMB_9 : field (layoutMB op hi mid low6) 9 3 = hi := by
  refine (extract_append_high (op ++ hi ++ mid) low6 9 3 (by omega)).trans ?_
  refine (extract_append_high (op ++ hi) mid 3 3 (by omega)).trans ?_
  refine (extract_append_low op hi 0 3 (by omega)).trans ?_
  exact BitVec.extractLsb'_eq_self

@[simp] theorem field_layoutMB_6 : field (layoutMB op hi mid low6) 6 3 = mid := by
  refine (extract_append_high (op ++ hi ++ mid) low6 6 3 (by omega)).trans ?_
  refine (extract_append_low (op ++ hi) mid 0 3 (by omega)).trans ?_
  exact BitVec.extractLsb'_eq_self

/-- A field inside the low six bits. -/
theorem field_layoutMB_low (lo len : Nat) (h : lo + len ≤ 6) : field (layoutMB op hi mid low6) lo len = low6.extractLsb' lo len :=
  extract_append_low (op ++ hi ++ mid) low6 lo len h

@[simp] theorem field_layoutMB_0_6 : field (layoutMB op hi mid low6) 0 6 = low6 :=
  (field_layoutMB_low op hi mid low6 0 6 (by omega)).trans BitVec.extractLsb'_eq_self

@[simp] theorem field_layoutMB_0_5_RI (imm5 : BitVec 5) : field (layoutMB op hi mid (lowRI imm5)) 0 5 = imm5 :=
  (field_layoutMB_low op hi mid _ 0 5 (by omega)).trans
    ((extract_append_low 0b1#1 imm5 0 5 (by omega)).trans BitVec.extractLsb'_eq_self)

@[simp] theorem field_layoutMB_0_3_RR (sr2 : BitVec 3) : field (layoutMB op hi mid (lowRR sr2)) 0 3 = sr2 :=
  (field_layoutMB_low op hi mid _ 0 3 (by omega)).trans
    ((extract_append_low 0b000#3 sr2 0 3 (by omega)).trans BitVec.extractLsb'_eq_self)

@[simp] theorem layoutMB_5_RI (imm5 : BitVec 5) : bit (layoutMB op hi mid (lowRI imm5)) 5 = true :=
  (layoutMB_low op hi mid _ 5 (by omega)).trans (getLsbD_append_high 0b1#1 imm5 5 (by omega))

@[simp] theorem layoutMB_5_RR (sr2 : BitVec 3) : bit (layoutMB op hi mid (lowRR sr2)) 5 = false :=
  (layoutMB_low op hi mid _ 5 (by omega)).trans (getLsbD_append_high 0b000#3 sr2 5 (by omega))

@[simp] theorem field_layoutMP_9 : field (layoutMP op hi low9) 9 3 = hi :=
  (extract_append_high (op ++ hi) low9 9 3 (by omega)).trans
    ((extract_append_low op hi 0 3 (by omega)).trans BitVec.extractLsb'_eq_self)

@[simp] theorem field_layoutMP_0 : field (layoutMP op hi low9) 0 9 = low9 :=
  (extract_append_low (op ++ hi) low9 0 9 (by omega)).trans BitVec.extractLsb'_eq_self

@[simp] theorem field_layoutJL_0 : field (layoutJL op flag low11) 0 11 = low11 :=
  (extract_append_low (op ++ flag) low11 0 11 (by omega)).trans BitVec.extractLsb'_eq_self

@[simp] theorem field_layoutTV_0 : field (layoutTV op unused low8) 0 8 = low8 :=
  (extract_append_low (op ++ unused) low8 0 8 (by omega)).trans BitVec.extractLsb'_eq_self

/-! ## A word is made of its fields -/

/-- Every word is the two-register layout of its own fields (30_encoding.md R82). -/
theorem layoutMB_fields (w : Word) : layoutMB (field w 12 4) (field w 9 3) (field w 6 3) (field w 0 6) = w := by
  refine BitVec.eq_of_getLsbD_eq fun i hi => ?_
  by_cases h6 : i < 6
  · rw [layoutMB_low _ _ _ _ _ h6, field, BitVec.getLsbD_extractLsb']; simp [h6]
  · by_cases h9 : i < 9
    · refine (getLsbD_append_high (field w 12 4 ++ field w 9 3 ++ field w 6 3) _ i (by omega)).trans ?_
      refine (getLsbD_append_low (field w 12 4 ++ field w 9 3) _ (i - 6) (by omega)).trans ?_
      rw [field, BitVec.getLsbD_extractLsb']
      simp [show i - 6 < 3 by omega, show 6 + (i - 6) = i by omega]
    · rw [layoutMB_high _ _ _ _ _ (by omega)]
      by_cases h12 : i < 12
      · rw [getLsbD_append_low _ _ _ (by omega), field, BitVec.getLsbD_extractLsb']
        simp [show i - 9 < 3 by omega, show 9 + (i - 9) = i by omega]
      · rw [getLsbD_append_high _ _ _ (by omega), field, BitVec.getLsbD_extractLsb']
        simp [show i - 9 - 3 < 4 by omega, show 12 + (i - 9 - 3) = i by omega]

theorem layoutMP_fields (w : Word) : layoutMP (field w 12 4) (field w 9 3) (field w 0 9) = w := by
  refine BitVec.eq_of_getLsbD_eq fun i hi => ?_
  by_cases h9 : i < 9
  · refine (getLsbD_append_low (field w 12 4 ++ field w 9 3) (field w 0 9) i h9).trans ?_
    rw [field, BitVec.getLsbD_extractLsb']; simp [h9]
  · rw [layoutMP_high _ _ _ _ (by omega)]
    by_cases h12 : i < 12
    · rw [getLsbD_append_low _ _ _ (by omega), field, BitVec.getLsbD_extractLsb']
      simp [show i - 9 < 3 by omega, show 9 + (i - 9) = i by omega]
    · rw [getLsbD_append_high _ _ _ (by omega), field, BitVec.getLsbD_extractLsb']
      simp [show i - 9 - 3 < 4 by omega, show 12 + (i - 9 - 3) = i by omega]

theorem layoutJL_fields (w : Word) : layoutJL (field w 12 4) (field w 11 1) (field w 0 11) = w := by
  refine BitVec.eq_of_getLsbD_eq fun i hi => ?_
  by_cases h9 : i < 11
  · refine (getLsbD_append_low (field w 12 4 ++ field w 11 1) (field w 0 11) i h9).trans ?_
    rw [field, BitVec.getLsbD_extractLsb']; simp [h9]
  · rw [layoutJL_high _ _ _ _ (by omega)]
    by_cases h12 : i < 12
    · rw [getLsbD_append_low _ _ _ (by omega), field, BitVec.getLsbD_extractLsb']
      simp [show i - 11 < 1 by omega, show 11 + (i - 11) = i by omega]
    · rw [getLsbD_append_high _ _ _ (by omega), field, BitVec.getLsbD_extractLsb']
      simp [show i - 11 - 1 < 4 by omega, show 12 + (i - 11 - 1) = i by omega]

theorem layoutTV_fields (w : Word) : layoutTV (field w 12 4) (field w 8 4) (field w 0 8) = w := by
  refine BitVec.eq_of_getLsbD_eq fun i hi => ?_
  by_cases h9 : i < 8
  · refine (getLsbD_append_low (field w 12 4 ++ field w 8 4) (field w 0 8) i h9).trans ?_
    rw [field, BitVec.getLsbD_extractLsb']; simp [h9]
  · rw [layoutTV_high _ _ _ _ (by omega)]
    by_cases h12 : i < 12
    · rw [getLsbD_append_low _ _ _ (by omega), field, BitVec.getLsbD_extractLsb']
      simp [show i - 8 < 4 by omega, show 8 + (i - 8) = i by omega]
    · rw [getLsbD_append_high _ _ _ (by omega), field, BitVec.getLsbD_extractLsb']
      simp [show i - 8 - 4 < 4 by omega, show 12 + (i - 8 - 4) = i by omega]

/-- A bit of a word masked by another. -/
theorem getLsbD_masked (w m : Word) (i : Nat) : (w &&& m).getLsbD i = (w.getLsbD i && m.getLsbD i) := BitVec.getLsbD_and

/-- Two words are equal under a mask exactly when they agree in every bit the mask has. -/
theorem masked_eq_iff (v w m : Word) :
    v &&& m = w &&& m ↔ ∀ i, i < 16 → m.getLsbD i = true → v.getLsbD i = w.getLsbD i := by
  constructor
  · intro h i _ hm
    have := congrArg (fun x => BitVec.getLsbD x i) h
    simpa only [getLsbD_masked, hm, Bool.and_true] using this
  · intro h
    refine BitVec.eq_of_getLsbD_eq fun i hi => ?_
    rw [getLsbD_masked, getLsbD_masked]
    cases hm : m.getLsbD i with
    | false => simp
    | true => simp [h i hi hm]

/-- Words that agree in a field's bits have the same field. -/
theorem field_congr {v w : Word} {lo len : Nat} (h : ∀ i, lo ≤ i → i < lo + len → v.getLsbD i = w.getLsbD i) :
    field v lo len = field w lo len := by
  refine BitVec.eq_of_getLsbD_eq fun i hi => ?_
  rw [field, field, BitVec.getLsbD_extractLsb', BitVec.getLsbD_extractLsb', h _ (by omega) (by omega)]

/-- A trap code selects no routine and stays `trap`, or it is the code of a routine and is named after it (30_encoding.md R92, R93). -/
theorem nameTrap_cases (v : BitVec 8) :
    (routineOfCode v = none ∧ nameTrap v = .trap v) ∨ (∃ r : TrapRoutine, v = r.code ∧ nameTrap v = r.instr) := by
  cases h : routineOfCode v with
  | none => exact .inl ⟨rfl, by simp [nameTrap, h]⟩
  | some r =>
    refine .inr ⟨r, ?_, by simp [nameTrap, h]⟩
    revert v
    cases r <;> decide

end Layouts

end Sys2Proof
end

