-- ==== Sys2Proof/Laws/PerInstr.lean ====
section
/-! SUPPORT. Facts about every instruction as syntax, one lemma per constructor. EncodeFitsRow: the word the encoder gives an instruction, from the formats of
30_encoding.md R82, fits the match and mask of the instruction's row of the opcode table (R93). -/

namespace Sys2Proof.Laws

/-- A word fits a row when it has the row's bits wherever the mask has one. -/
theorem fits_of_bits {row : OpcodeRow} {w : Word} (hsub : row.pattern &&& row.mask = row.pattern)
    (h : ∀ i, i < 16 → row.mask.getLsbD i = true → w.getLsbD i = row.pattern.getLsbD i) : row.fits w = true := by
  have := (masked_eq_iff w row.pattern row.mask).2 h
  simp [OpcodeRow.fits, this, hsub]

/-- The rows whose mask is the opcode. -/
theorem fits_opcode {w p : Word} (hp : p &&& 0xF000#16 = p) (h15 : bit w 15 = bit p 15) (h14 : bit w 14 = bit p 14) (h13 : bit w 13 = bit p 13)
    (h12 : bit w 12 = bit p 12) : (OpcodeRow.mk p 0xF000#16).fits w = true := by
  refine fits_of_bits hp fun i hi (hm : BitVec.getLsbD 0xF000#16 i = true) => ?_
  interval_cases i <;> first | assumption | simp at hm

/-- The rows of ADD and AND, whose mask takes in bit 5. -/
theorem fits_opcode_bit5 {w p : Word} (hp : p &&& 0xF020#16 = p) (h15 : bit w 15 = bit p 15) (h14 : bit w 14 = bit p 14) (h13 : bit w 13 = bit p 13)
    (h12 : bit w 12 = bit p 12) (h5 : bit w 5 = bit p 5) : (OpcodeRow.mk p 0xF020#16).fits w = true := by
  refine fits_of_bits hp fun i hi (hm : BitVec.getLsbD 0xF020#16 i = true) => ?_
  interval_cases i <;> first | assumption | simp at hm

/-- The rows of JSR and JSRR, whose mask takes in bit 11. -/
theorem fits_opcode_bit11 {w p : Word} (hp : p &&& 0xF800#16 = p) (h15 : bit w 15 = bit p 15) (h14 : bit w 14 = bit p 14) (h13 : bit w 13 = bit p 13)
    (h12 : bit w 12 = bit p 12) (h11 : bit w 11 = bit p 11) : (OpcodeRow.mk p 0xF800#16).fits w = true := by
  refine fits_of_bits hp fun i hi (hm : BitVec.getLsbD 0xF800#16 i = true) => ?_
  interval_cases i <;> first | assumption | simp at hm

namespace EncodeFitsRow

/-- The instruction's word is one of its row's. -/
def Statement (i : Instr) : Prop := i.row.fits (encode i) = true

theorem br (mask : BitVec 3) (off : BitVec 9) : Statement (.br mask off) :=
  fits_opcode rfl (layoutMP_15 _ _ _) (layoutMP_14 _ _ _) (layoutMP_13 _ _ _) (layoutMP_12 _ _ _)

theorem addReg (dr sr1 sr2 : Reg) : Statement (.addReg dr sr1 sr2) :=
  fits_opcode_bit5 rfl (layoutMB_15 _ _ _ _) (layoutMB_14 _ _ _ _) (layoutMB_13 _ _ _ _) (layoutMB_12 _ _ _ _) (layoutMB_5_RR _ _ _ _)

theorem addImm (dr sr1 : Reg) (imm : BitVec 5) : Statement (.addImm dr sr1 imm) :=
  fits_opcode_bit5 rfl (layoutMB_15 _ _ _ _) (layoutMB_14 _ _ _ _) (layoutMB_13 _ _ _ _) (layoutMB_12 _ _ _ _) (layoutMB_5_RI _ _ _ _)

theorem ld (dr : Reg) (off : BitVec 9) : Statement (.ld dr off) :=
  fits_opcode rfl (layoutMP_15 _ _ _) (layoutMP_14 _ _ _) (layoutMP_13 _ _ _) (layoutMP_12 _ _ _)

theorem st (sr : Reg) (off : BitVec 9) : Statement (.st sr off) :=
  fits_opcode rfl (layoutMP_15 _ _ _) (layoutMP_14 _ _ _) (layoutMP_13 _ _ _) (layoutMP_12 _ _ _)

theorem jsr (off : BitVec 11) : Statement (.jsr off) :=
  fits_opcode_bit11 rfl (layoutJL_15 _ _ _) (layoutJL_14 _ _ _) (layoutJL_13 _ _ _) (layoutJL_12 _ _ _) (layoutJL_11 _ _ _)

theorem jsrr (base : Reg) : Statement (.jsrr base) :=
  fits_opcode_bit11 rfl (layoutMB_15 _ _ _ _) (layoutMB_14 _ _ _ _) (layoutMB_13 _ _ _ _) (layoutMB_12 _ _ _ _) (layoutMB_11 _ _ _ _)

theorem andReg (dr sr1 sr2 : Reg) : Statement (.andReg dr sr1 sr2) :=
  fits_opcode_bit5 rfl (layoutMB_15 _ _ _ _) (layoutMB_14 _ _ _ _) (layoutMB_13 _ _ _ _) (layoutMB_12 _ _ _ _) (layoutMB_5_RR _ _ _ _)

theorem andImm (dr sr1 : Reg) (imm : BitVec 5) : Statement (.andImm dr sr1 imm) :=
  fits_opcode_bit5 rfl (layoutMB_15 _ _ _ _) (layoutMB_14 _ _ _ _) (layoutMB_13 _ _ _ _) (layoutMB_12 _ _ _ _) (layoutMB_5_RI _ _ _ _)

theorem ldr (dr base : Reg) (off : BitVec 6) : Statement (.ldr dr base off) :=
  fits_opcode rfl (layoutMB_15 _ _ _ _) (layoutMB_14 _ _ _ _) (layoutMB_13 _ _ _ _) (layoutMB_12 _ _ _ _)

theorem str (sr base : Reg) (off : BitVec 6) : Statement (.str sr base off) :=
  fits_opcode rfl (layoutMB_15 _ _ _ _) (layoutMB_14 _ _ _ _) (layoutMB_13 _ _ _ _) (layoutMB_12 _ _ _ _)

theorem rti : Statement .rti := rfl

theorem not (dr sr : Reg) : Statement (.not dr sr) :=
  fits_opcode rfl (layoutMB_15 _ _ _ _) (layoutMB_14 _ _ _ _) (layoutMB_13 _ _ _ _) (layoutMB_12 _ _ _ _)

theorem ldi (dr : Reg) (off : BitVec 9) : Statement (.ldi dr off) :=
  fits_opcode rfl (layoutMP_15 _ _ _) (layoutMP_14 _ _ _) (layoutMP_13 _ _ _) (layoutMP_12 _ _ _)

theorem sti (sr : Reg) (off : BitVec 9) : Statement (.sti sr off) :=
  fits_opcode rfl (layoutMP_15 _ _ _) (layoutMP_14 _ _ _) (layoutMP_13 _ _ _) (layoutMP_12 _ _ _)

theorem jmp (base : Reg) : Statement (.jmp base) :=
  fits_opcode rfl (layoutMB_15 _ _ _ _) (layoutMB_14 _ _ _ _) (layoutMB_13 _ _ _ _) (layoutMB_12 _ _ _ _)

theorem res : Statement .res := rfl

theorem lea (dr : Reg) (off : BitVec 9) : Statement (.lea dr off) :=
  fits_opcode rfl (layoutMP_15 _ _ _) (layoutMP_14 _ _ _) (layoutMP_13 _ _ _) (layoutMP_12 _ _ _)

theorem trap (v : BitVec 8) : Statement (.trap v) :=
  fits_opcode rfl (layoutTV_15 _ _ _) (layoutTV_14 _ _ _) (layoutTV_13 _ _ _) (layoutTV_12 _ _ _)

theorem getc : Statement .getc := rfl

theorem out : Statement .out := rfl

theorem puts : Statement .puts := rfl

theorem inChar : Statement .inChar := rfl

theorem putsp : Statement .putsp := rfl

theorem halt : Statement .halt := rfl

theorem trapUndefined (v : BitVec 8) : Statement (.trapUndefined v) :=
  fits_opcode rfl (layoutTV_15 _ _ _) (layoutTV_14 _ _ _) (layoutTV_13 _ _ _) (layoutTV_12 _ _ _)

theorem ret : Statement .ret := rfl

end EncodeFitsRow

end Sys2Proof.Laws
end

