-- ==== Sys2Proof/Laws/Strings.lean ====
section
/-! SUPPORT. The string loop of PUTS and PUTSP: what one pass can do, and what it needs of the state. -/

namespace Sys2Proof.Machine

theorem next_address (a : Word) (k : Nat) : a + 1#16 + BitVec.ofNat 16 k = a + BitVec.ofNat 16 (k + 1) := by
  rw [BitVec.add_assoc, Nat.add_comm]
  exact congrArg (a + ·) (BitVec.ofNat_add 1 k).symm

/-- The loop reads `n` words from `a` on, none of them zero, and goes from `s` to `t`. -/
def GoesThrough (chars : Word → List Byte) (n : Nat) (a : Word) (s t : State) : Prop :=
  ∀ later, printPass chars later n a s = later (a + BitVec.ofNat 16 n) t

theorem goesThrough_zero (chars : Word → List Byte) (a : Word) (s : State) : GoesThrough chars 0 a s s := by
  intro later
  simp [printPass]

theorem goesThrough_zero_eq {chars : Word → List Byte} {a : Word} {s t : State} (h : GoesThrough chars 0 a s t) : t = s := by
  have := h fun _ u => .next u
  simp only [printPass] at this
  cases this
  rfl

theorem goesThrough_succ {chars : Word → List Byte} {n : Nat} {a w : Word} {s t u : State} (hr : memRead a s = .ok (w, u)) (hw : w ≠ 0#16)
    (h : GoesThrough chars n (a + 1#16) (u.consoleOut (chars w)) t) : GoesThrough chars (n + 1) a s t := by
  intro later
  simp only [printPass, hr, hw, if_false]
  rw [h later, next_address]

/-- A longer pass is one non-zero word and a shorter pass. -/
theorem goesThrough_succ_inv {chars : Word → List Byte} {n : Nat} {a : Word} {s t : State} (h : GoesThrough chars (n + 1) a s t) :
    ∃ w u, memRead a s = .ok (w, u) ∧ w ≠ 0#16 ∧ GoesThrough chars n (a + 1#16) (u.consoleOut (chars w)) t := by
  have probe := h fun _ _ => .refused .imageTooLong
  cases hr : memRead a s with
  | error f => simp [printPass, hr] at probe
  | ok r =>
    obtain ⟨w, u⟩ := r
    by_cases hw : w = 0#16
    · simp [printPass, hr, hw] at probe
    · refine ⟨w, u, rfl, hw, fun later => ?_⟩
      have := h later
      simp only [printPass, hr, hw, if_false] at this
      rw [this, next_address]

/-- Everything a pass can do: end by itself, whatever would come later, and not as an endless string; or go through. -/
theorem printPass_cases (chars : Word → List Byte) (n : Nat) (a : Word) (s : State) :
    (∃ o, (∀ later, printPass chars later n a s = o) ∧ ∀ v, o ≠ .fault (.stringNeverEnds v)) ∨ ∃ t, GoesThrough chars n a s t := by
  induction n generalizing a s with
  | zero => exact .inr ⟨s, goesThrough_zero _ _ _⟩
  | succ n ih =>
    cases hr : memRead a s with
    | error f =>
      refine .inl ⟨.fault f, fun later => by simp [printPass, hr], ?_⟩
      rw [(memRead_error hr).2.2]
      intro v h
      cases h
    | ok r =>
      obtain ⟨w, u⟩ := r
      by_cases hw : w = 0#16
      · exact .inl ⟨.next u, fun later => by simp [printPass, hr, hw], fun v h => by cases h⟩
      · rcases ih (a + 1#16) (u.consoleOut (chars w)) with ⟨o, h1, h2⟩ | ⟨t, h⟩
        · exact .inl ⟨o, fun later => by simp only [printPass, hr, hw, if_false]; exact h1 later, h2⟩
        · exact .inr ⟨t, goesThrough_succ hr hw h⟩

/-- The next pass reads all 65536 words. (Rewrite with this; unfolding the loop runs it.) -/
theorem printPasses_succ (chars : Word → List Byte) (p : Nat) (a : Word) (s : State) :
    printPasses chars (p + 1) a s = printPass chars (printPasses chars p) 65536 a s := rfl

theorem printPass_zero (chars : Word → List Byte) (later : Word → State → Outcome) (a : Word) (s : State) :
    printPass chars later 0 a s = later a s := rfl

/-- A whole pass that goes through comes back to the address it started from. -/
theorem printPasses_of_goesThrough {chars : Word → List Byte} {p : Nat} {a : Word} {s t : State} (h : GoesThrough chars 65536 a s t) :
    printPasses chars (p + 1) a s = printPasses chars p a t := by
  rw [printPasses_succ, h]
  exact congrArg (fun x => printPasses chars p x t) (by simp)

/-! ## What a read depends on -/

/-- The part of the state a read depends on: memory, the port's input and the parameters. -/
structure SameInput (s t : State) : Prop where
  mem : t.mem = s.mem
  answers : t.console.answers = s.console.answers
  rest : t.console.rest = s.console.rest
  cfg : t.cfg = s.cfg

theorem nextAnswer_of_consoleIn {s t : State} {a : Option Byte} (h : consoleIn s = .ok (a, t)) : s.nextAnswer = some a := by
  rcases consoleIn_cases s with ⟨b, later, hl, hc⟩ | ⟨b, hl, hr, hc⟩ | ⟨-, -, hc⟩ <;> rw [hc] at h
  · cases h; simp [State.nextAnswer, hl]
  · cases h; simp [State.nextAnswer, hl, hr]
  · cases h

/-- States that agree in what a read depends on read the same word, and agree afterwards. -/
theorem memRead_sameInput {s t u : State} {a w : Word} (h : SameInput s t) (hr : memRead a s = .ok (w, u)) :
    ∃ v, memRead a t = .ok (w, v) ∧ SameInput u v := by
  obtain ⟨hw, ⟨hne, rfl⟩ | ⟨rfl, hp⟩⟩ := memRead_ok hr
  · exact ⟨t, by rw [memRead_plain (by rw [h.cfg]; exact hne), h.mem, hw], h⟩
  · obtain ⟨x, hc, rfl⟩ := poll_ok hp
    have ht : consoleIn t = .ok (x, t.setAnswers t.console.answers.tail) := by
      refine consoleIn_of_nextAnswer ?_
      rw [← nextAnswer_of_consoleIn hc, State.nextAnswer, State.nextAnswer, h.answers, h.rest]
    cases x with
    | none =>
      have e := memRead_status (poll_of_none ht)
      rw [h.cfg] at e
      exact ⟨(t.setAnswers t.console.answers.tail).setMem (t.mem.write t.cfg.kbsrAddr 0x0000#16),
        by rw [e, hw]; simp [h.mem, h.cfg], by simp [h.mem, h.cfg], by simp [h.answers], h.rest, h.cfg⟩
    | some c =>
      have e := memRead_status (poll_of_char ht)
      rw [h.cfg] at e
      exact ⟨(t.setAnswers t.console.answers.tail).setMem ((t.mem.write t.cfg.kbsrAddr 0x8000#16).write t.cfg.kbdrAddr (zext c)),
        by rw [e, hw]; simp [h.mem, h.cfg], by simp [h.mem, h.cfg], by simp [h.answers], h.rest, h.cfg⟩

/-! ## The same poll twice leaves what it leaves once -/

theorem Memory.write_twice {m : Memory} (hm : Memory.wf m = true) (k v : Word) : (m.write k v).write k v = m.write k v := by
  have h1 := Memory.write_wf hm k v
  refine Memory.ext_read (Memory.write_wf h1 k v) h1 fun b => ?_
  simp only [Memory.read_write h1, Memory.read_write hm]
  split <;> rfl

theorem Memory.write_two_twice {m : Memory} (hm : Memory.wf m = true) (k d v c : Word) :
    (((m.write k v).write d c).write k v).write d c = (m.write k v).write d c := by
  have h1 := Memory.write_wf hm k v
  have h2 := Memory.write_wf h1 d c
  have h3 := Memory.write_wf h2 k v
  refine Memory.ext_read (Memory.write_wf h3 d c) h2 fun b => ?_
  simp only [Memory.read_write h3, Memory.read_write h2, Memory.read_write h1, Memory.read_write hm]
  split
  · rfl
  · split <;> simp_all

end Sys2Proof.Machine
end

