-- ==== Sys2Proof/Tests/Slice0.lean ====
section
/-! SUPPORT. The model's own tests. Expected results are those of spec/95_test_vectors.md, section by section, or worked by hand from the rule named. A test places one word
and runs one step. The witnesses at the end show, for each statement with hypotheses, concrete states and operands that meet them. -/

namespace Sys2Proof.Tests

open Sys2Proof.Machine

/-! ## Helpers -/

/-- The default addresses of 00_scope.md R7, a prompt and a notice of one character each, and either value of `TRAP_LINKS_R7`. -/
def cfg (links : Bool) : Config := ⟨0xFE00#16, 0xFE02#16, 0x3000#16, links, [0x3E#8], [0x21#8]⟩

/-- Right after reset, `TRAP_LINKS_R7` false, with a console that gives these answers and then no more. -/
def start (answers : List (Option Byte)) : State := State.resetWith (cfg false) ⟨answers, .silent, []⟩

/-- The same with `TRAP_LINKS_R7` true. -/
def startLinked (answers : List (Option Byte)) : State := State.resetWith (cfg true) ⟨answers, .silent, []⟩

/-- Words put in memory from outside. -/
def State.put (s : State) : List (Word × Word) → State
  | [] => s
  | (a, v) :: later => State.put (memWrite a v s) later

/-- The next state, if there is one. -/
def nextOf : Outcome → Option State
  | .next t => some t
  | .fault _ => none
  | .refused _ => none

/-- One step of the machine with this word at `pc`. -/
def after (word : Word) (s : State) : Option State := nextOf (step (memWrite s.pc word s))

/-! ## Well-formedness: one ill-formed term for each check, and its legal neighbour -/

theorem test_wf_refuses_jmp_r7 : Instr.wellFormed (.jmp .r7) = false := by decide
theorem test_wf_refuses_trap_x20 : Instr.wellFormed (.trap 0x20#8) = false := by decide
theorem test_wf_refuses_trap_x25 : Instr.wellFormed (.trap 0x25#8) = false := by decide
theorem test_wf_refuses_trapUndefined : Instr.wellFormed (.trapUndefined 0xFF#8) = false := by decide
theorem test_wf_accepts_neighbours :
    Instr.wellFormed (.jmp .r6) = true ∧ Instr.wellFormed (.trap 0x1F#8) = true ∧ Instr.wellFormed (.trap 0x26#8) = true := by decide
theorem test_memory_wf_refuses :
    Memory.wf [(4, 1#8), (2, 1#8)] = false ∧ Memory.wf [(4, 1#8), (4, 2#8)] = false ∧ Memory.wf [(4, 0#8)] = false ∧
      Memory.wf [(131072, 1#8)] = false ∧ Memory.wf [(2, 1#8), (131071, 1#8)] = true := by decide
theorem test_config_wf_refuses : Config.wf ⟨7#16, 7#16, 0#16, false, [], []⟩ = false := by decide

/-! ## Decoding: a word for every constructor, written bit by bit from 30_encoding.md R82 and R84 -/

theorem test_decode_br : decode 0b0000_101_000000101#16 = .br 0b101#3 5#9 := by decide
theorem test_decode_addReg : decode 0b0001_111_111_0_11_111#16 = .addReg .r7 .r7 .r7 := by decide
theorem test_decode_addImm : decode 0b0001_111_111_1_11111#16 = .addImm .r7 .r7 0x1F#5 := by decide
theorem test_decode_ld : decode 0b0010_000_111111111#16 = .ld .r0 0x1FF#9 := by decide
theorem test_decode_st : decode 0b0011_011_000000101#16 = .st .r3 5#9 := by decide
theorem test_decode_jsr : decode 0b0100_1_10000000000#16 = .jsr 0x400#11 := by decide
theorem test_decode_jsrr : decode 0b0100_0_00_010_000000#16 = .jsrr .r2 := by decide
theorem test_decode_andReg : decode 0b0101_001_010_0_00_011#16 = .andReg .r1 .r2 .r3 := by decide
theorem test_decode_andImm : decode 0b0101_100_101_1_10000#16 = .andImm .r4 .r5 0x10#5 := by decide
theorem test_decode_ldr : decode 0b0110_001_010_100000#16 = .ldr .r1 .r2 0x20#6 := by decide
theorem test_decode_str : decode 0b0111_011_001_000100#16 = .str .r3 .r1 4#6 := by decide
theorem test_decode_rti : decode 0b1000_000000000000#16 = .rti := by decide
theorem test_decode_not : decode 0b1001_011_100_000000#16 = .not .r3 .r4 := by decide
theorem test_decode_ldi : decode 0b1010_000_000000001#16 = .ldi .r0 1#9 := by decide
theorem test_decode_sti : decode 0b1011_011_111111110#16 = .sti .r3 0x1FE#9 := by decide
theorem test_decode_jmp : decode 0b1100_111_010_000101#16 = .jmp .r2 := by decide
theorem test_decode_res : decode 0b1101_000100100011#16 = .res := by decide
theorem test_decode_lea : decode 0b1110_110_011111111#16 = .lea .r6 0xFF#9 := by decide
theorem test_decode_trap : decode 0b1111_0000_00011111#16 = .trap 0x1F#8 ∧ decode 0b1111_0000_00100110#16 = .trap 0x26#8 := by decide
theorem test_decode_getc : decode 0b1111_0000_00100000#16 = .getc := by decide
theorem test_decode_out : decode 0b1111_0000_00100001#16 = .out := by decide
theorem test_decode_puts : decode 0b1111_0000_00100010#16 = .puts := by decide
theorem test_decode_inChar : decode 0b1111_0000_00100011#16 = .inChar := by decide
theorem test_decode_putsp : decode 0b1111_0000_00100100#16 = .putsp := by decide
theorem test_decode_halt : decode 0b1111_1111_00100101#16 = .halt := by decide
theorem test_decode_ret : decode 0b1100_000_111_000000#16 = .ret := by decide
/-- TRAP_UNDEFINED has no word of its own: its words are TRAP's (30_encoding.md R93). -/
theorem test_encode_trapUndefined : encode (.trapUndefined 0xFF#8) = 0xF0FF#16 ∧ decode 0xF0FF#16 = .trap 0xFF#8 := by decide
theorem test_decode_too_short : decodeBytes [0x30#8] = .error .noWholeWord ∧ decodeTableWord 24 0 = none := by decide
theorem test_decodeTableWord : decodeTableWord 16 0xF025 = some .halt ∧ decodeTableWord 8 0xFFFF = some (.br 0#3 0xFF#9) := by decide

/-! ## ADD, AND, NOT: 95_test_vectors.md 2.2 -/

theorem test_addReg_overflow_is_negative :
    (after 0x1042#16 (((start []).setReg .r1 0x7FFF#16).setReg .r2 1#16)).map (fun t => (t.reg .r0, t.cond, t.pc)) = some (0x8000#16, .negative, 0x3001#16) := by decide
theorem test_addReg_source_is_destination :
    (after 0x1241#16 ((start []).setReg .r1 0x4000#16)).map (fun t => (t.reg .r1, t.cond)) = some (0x8000#16, .negative) := by decide
theorem test_addImm_sign_extends :
    (after 0x1070#16 ((start []).setReg .r1 0x10#16)).map (fun t => (t.reg .r0, t.cond)) = some (0#16, .zero) := by decide
/-- S4. -/
theorem test_addImm_minus_one :
    (after 0x107F#16 ((start []).setReg .r1 5#16)).map (fun t => (t.reg .r0, t.cond)) = some (4#16, .positive) := by decide
theorem test_andReg :
    (after 0x5042#16 (((start []).setReg .r1 0xFF0F#16).setReg .r2 0x0FF0#16)).map (fun t => (t.reg .r0, t.cond)) = some (0x0F00#16, .positive) := by decide
theorem test_andImm_sign_extends :
    (after 0x5070#16 ((start []).setReg .r1 0xABCD#16)).map (fun t => (t.reg .r0, t.cond)) = some (0xABC0#16, .negative) := by decide
theorem test_not_in_place :
    (after 0x96FF#16 ((start []).setReg .r3 0x1234#16)).map (fun t => (t.reg .r3, t.cond)) = some (0xEDCB#16, .negative) := by decide
theorem test_not_ignored_bits :
    (after 0x9040#16 ((start []).setReg .r1 0x8000#16)).map (fun t => (t.reg .r0, t.cond)) = some (0x7FFF#16, .positive) := by decide

/-! ## Control transfer: 2.3 and 2.4 -/

theorem test_br_taken_backward :
    (after 0x0300#16 ((start []).setCond .positive)).map (fun t => (t.pc, t.cond)) = some (0x2F01#16, .positive) := by decide
theorem test_br_not_taken : (after 0x0A05#16 (start [])).map (fun t => t.pc) = some 0x3001#16 := by decide
theorem test_jmp : (after 0xCE85#16 ((start []).setReg .r2 0x4000#16)).map (fun t => (t.pc, t.reg .r7)) = some (0x4000#16, 0#16) := by decide
theorem test_ret : (after 0xC1C0#16 ((start []).setReg .r7 0x3003#16)).map (fun t => t.pc) = some 0x3003#16 := by decide
theorem test_jsr_backward : (after 0x4C00#16 (start [])).map (fun t => (t.reg .r7, t.pc)) = some (0x3001#16, 0x2C01#16) := by decide
theorem test_jsr_top_of_memory : (after 0x4800#16 ((start []).setPc 0xFFFF#16)).map (fun t => (t.reg .r7, t.pc)) = some (0#16, 0#16) := by decide
theorem test_jsrr : (after 0x4080#16 ((start []).setReg .r2 0x5000#16)).map (fun t => (t.reg .r7, t.pc)) = some (0x3001#16, 0x5000#16) := by decide
theorem test_jsrr_r7_falls_through : (after 0x41C0#16 ((start []).setReg .r7 0x5000#16)).map (fun t => (t.reg .r7, t.pc)) = some (0x3001#16, 0x3001#16) := by decide

/-! ## Loads, LEA and stores: 2.5 and 2.6 -/

theorem test_ld_its_own_word : (after 0x21FF#16 (start [])).map (fun t => (t.reg .r0, t.cond)) = some (0x21FF#16, .positive) := by decide
theorem test_ld_wraps :
    (after 0x2000#16 (State.put ((start []).setPc 0xFFFF#16) [(0#16, 0x8000#16)])).map (fun t => (t.reg .r0, t.cond, t.pc)) = some (0x8000#16, .negative, 0#16) := by decide
/-- S6. -/
theorem test_ldi :
    (after 0xA001#16 (State.put (start []) [(0x3002#16, 0x4000#16), (0x4000#16, 0x2A#16)])).map (fun t => (t.reg .r0, t.cond)) = some (0x2A#16, .positive) := by decide
theorem test_ldi_polls :
    (after 0xA001#16 (State.put (start [some 0x41#8]) [(0x3002#16, 0xFE00#16)])).map
      (fun t => (t.reg .r0, t.mem.read 0xFE00#16, t.mem.read 0xFE02#16, t.console.answers.length)) =
      some (0x8000#16, 0x8000#16, 0x41#16, 0) := by decide
theorem test_ldr_minus_one :
    (after 0x607F#16 (State.put ((start []).setReg .r1 0x4001#16) [(0x4000#16, 0x8001#16)])).map (fun t => (t.reg .r0, t.cond)) = some (0x8001#16, .negative) := by decide
theorem test_ldr_wraps_in_place :
    (after 0x6241#16 (State.put ((start []).setReg .r1 0xFFFF#16) [(0#16, 9#16)])).map (fun t => (t.reg .r1, t.cond)) = some (9#16, .positive) := by decide
theorem test_lea_backward : (after 0xE1FE#16 (start [])).map (fun t => (t.reg .r0, t.cond)) = some (0x2FFF#16, .positive) := by decide
theorem test_lea_negative : (after 0xE0FF#16 ((start []).setPc 0x7F00#16)).map (fun t => (t.reg .r0, t.cond)) = some (0x8000#16, .negative) := by decide
theorem test_st :
    (after 0x3605#16 (((start []).setReg .r3 0xBEEF#16).setCond .positive)).map (fun t => (t.mem.read 0x3006#16, t.cond)) = some (0xBEEF#16, .positive) := by decide
theorem test_st_over_itself : (after 0x37FF#16 ((start []).setReg .r3 0xBEEF#16)).map (fun t => (t.mem.read 0x3000#16, t.pc)) = some (0xBEEF#16, 0x3001#16) := by decide
theorem test_sti :
    (after 0xB605#16 (State.put ((start []).setReg .r3 7#16) [(0x3006#16, 0x5000#16)])).map (fun t => (t.mem.read 0x5000#16, t.mem.read 0x3006#16)) = some (7#16, 0x5000#16) := by decide
theorem test_sti_pointer_overwrites_itself :
    (after 0xB605#16 (State.put ((start []).setReg .r3 7#16) [(0x3006#16, 0x3006#16)])).map (fun t => t.mem.read 0x3006#16) = some 7#16 := by decide
theorem test_str_in_place : (after 0x7240#16 ((start []).setReg .r1 0x4000#16)).map (fun t => t.mem.read 0x4000#16) = some 0x4000#16 := by decide
theorem test_str_wraps : (after 0x767F#16 ((start []).setReg .r3 0x1111#16)).map (fun t => t.mem.read 0xFFFF#16) = some 0x1111#16 := by decide

/-! ## TRAP and its routines: 2.7, and S7 -/

theorem test_getc :
    (after 0xF020#16 ((start [some 0x41#8]).setCond .negative)).map (fun t => (t.reg .r0, t.cond, t.console.output, t.reg .r7)) = some (0x41#16, .negative, [], 0#16) := by decide
theorem test_getc_never_answered : (after 0xF020#16 (start [])).isNone = true := by decide
theorem test_out :
    (after 0xF021#16 ((start []).setReg .r0 0x1248#16)).map (fun t => (t.console.output, t.reg .r0)) = some ([0x48#8], 0x1248#16) := by decide
theorem test_out_links :
    (after 0xF021#16 (startLinked [])).map (fun t => (t.console.output, t.reg .r7)) = some ([0#8], 0x3001#16) := by decide
theorem test_puts_ignores_high_bytes :
    (after 0xF022#16 (State.put ((start []).setReg .r0 0x4000#16) [(0x4000#16, 0x141#16), (0x4001#16, 0x100#16), (0x4002#16, 0x42#16)])).map
      (fun t => (t.console.output, t.reg .r0)) = some ([0x41#8, 0#8, 0x42#8], 0x4000#16) := by decide
theorem test_puts_wraps :
    (after 0xF022#16 (State.put ((start []).setReg .r0 0xFFFF#16) [(0xFFFF#16, 0x41#16), (0#16, 0x42#16)])).map (fun t => t.console.output) =
      some [0x41#8, 0x42#8] := by decide
theorem test_in :
    (after 0xF023#16 (start [some 0x7A#8])).map (fun t => (t.console.output, t.reg .r0, t.cond)) = some ([0x3E#8, 0x7A#8], 0x7A#16, .zero) := by decide
theorem test_putsp :
    (after 0xF024#16 (State.put ((start []).setReg .r0 0x4000#16) [(0x4000#16, 0x6100#16)])).map (fun t => t.console.output) = some [0#8, 0x61#8] := by decide
theorem test_halt :
    (after 0xFF25#16 (start [])).map (fun t => (t.console.output, t.run, t.run.exitCode, t.pc)) = some ([0x21#8], .halted, some 0, 0x3001#16) := by decide
theorem test_trap_undefined :
    (after 0xF026#16 (start [])).map (fun t => (t.run, t.run.exitCode, t.pc, t.console.output)) = some (.dead .undefinedTrap, some 21, 0x3001#16, []) := by decide
theorem test_trapUndefined_row :
    (nextOf (exec (.trapUndefined 0xFF#8) (start []))).map (fun t => (t.run, t.run.exitCode)) = some (.dead .undefinedTrap, some 21) := by decide

/-! ## RTI and the reserved opcode: 2.8 -/

theorem test_rti : (after 0x8FFF#16 (start [])).map (fun t => (t.run, t.run.exitCode, t.pc)) = some (.dead .reservedOpcode, some 10, 0x3001#16) := by decide
theorem test_res : (after 0xD123#16 (start [])).map (fun t => (t.run, t.run.exitCode, t.pc)) = some (.dead .reservedOpcode, some 10, 0x3001#16) := by decide

/-! ## The image loader: 2.10 -/

theorem test_image_ignores_odd_byte :
    (nextOf (loadImage [0x30#8, 0#8, 0x12#8, 0x34#8, 0xAB#8] (start []))).map (fun t => (t.mem.read 0x3000#16, t.mem.read 0x3001#16)) = some (0x1234#16, 0#16) := by decide
theorem test_later_image_wins :
    (nextOf (loadImages [[0x30#8, 0#8, 0x11#8, 0x11#8, 0x22#8, 0x22#8], [0x30#8, 1#8, 0x33#8, 0x33#8]] (start []))).map
      (fun t => (t.mem.read 0x3000#16, t.mem.read 0x3001#16)) = some (0x1111#16, 0x3333#16) := by decide

/-! ## Witnesses: for each statement with hypotheses, states and operands that meet them, at the boundary of each clause -/

theorem next_of_isSome {o : Outcome} (h : (nextOf o).isSome = true) : ∃ t, o = .next t := by
  cases o with
  | next t => exact ⟨t, rfl⟩
  | fault f => cases h
  | refused r => cases h

theorem next_of_any {o : Outcome} (p : State → Bool) (h : (nextOf o).any p = true) : ∃ t, o = .next t ∧ p t = true := by
  cases o with
  | next t => exact ⟨t, rfl, h⟩
  | fault f => cases h
  | refused r => cases h

/-- A state whose `pc` and R1 are `KBSR_ADDR`, R0 too: every offset 0 reads the status register. -/
def atStatus (answers : List (Option Byte)) : State := (((start answers).setPc 0xFE00#16).setReg .r0 0xFE00#16).setReg .r1 0xFE00#16

theorem witness_SetccHasThreeCases :
    (0x0000#16 : Word) = 0#16 ∧ (0x8000#16 : Word).getLsbD 15 = true ∧ (0xFFFF#16 : Word).getLsbD 15 = true ∧
      (0x0001#16 : Word) ≠ 0#16 ∧ (0x0001#16 : Word).getLsbD 15 = false ∧ (0x7FFF#16 : Word) ≠ 0#16 ∧ (0x7FFF#16 : Word).getLsbD 15 = false := by decide

/-- S1 and S2, and widths 1 and 16. -/
theorem witness_SextCopiesTopBitUpward :
    (1 ≤ 5 ∧ 5 ≤ 16) ∧ (0b01111#5).toNat < 2 ^ (5 - 1) ∧ sext 0b01111#5 = 0x000F#16 ∧ 2 ^ (5 - 1) ≤ (0b10000#5).toNat ∧ sext 0b11111#5 = 0xFFFF#16 ∧
      2 ^ (1 - 1) ≤ (1#1).toNat ∧ 2 ^ (16 - 1) ≤ (0x8000#16).toNat := by decide

theorem witness_CondWrittenByDestWritesAndReadByBrOnly :
    (∃ t, exec (.lea .r0 0#9) (start []) = .next t) ∧ (Instr.lea .r0 0#9).dest = some .r0 ∧ (∀ mask off, Instr.lea .r0 0#9 ≠ .br mask off) ∧
      (∃ t, exec .out (start []) = .next t) ∧ Instr.out.dest = none ∧ (∀ mask off, Instr.out ≠ .br mask off) :=
  ⟨⟨_, rfl⟩, rfl, (fun _ _ h => by cases h), ⟨_, rfl⟩, rfl, fun _ _ h => by cases h⟩

theorem witness_LdAndLdrLoadTheWord :
    ((start []).setPc 0xFE00#16).pc + sext (0x1FF#9) ≠ (start []).cfg.kbsrAddr ∧ ((start []).setReg .r1 0xFDFF#16).reg .r1 + sext (2#6) ≠ (start []).cfg.kbsrAddr := by
  decide

theorem witness_LdiLoadsThroughThePointer :
    let s := State.put (start []) [(0x3000#16, 0xFE01#16)]
    s.pc + sext 0#9 ≠ s.cfg.kbsrAddr ∧ s.mem.read (s.pc + sext 0#9) ≠ s.cfg.kbsrAddr := by decide

/-- Each clause: LD and LDR at `KBSR_ADDR`; LDI through a pointer to it; LDI whose pointer cell is it, with a status word other than it, and equal to it. -/
theorem witness_LoadOfStatusPollsFirst :
    let s := atStatus [some 0x41#8]
    let p := State.put (start [none]) [(0x3000#16, 0xFE00#16)]
    let z : State := (State.resetWith ⟨0#16, 2#16, 0#16, true, [], []⟩ ⟨[none], .silent, []⟩)
    (Memory.wf s.mem = true ∧ s.cfg.wf = true ∧ s.nextAnswer = some (some 0x41#8) ∧ s.pc + sext 0#9 = s.cfg.kbsrAddr ∧
        s.reg .r1 + sext 0#6 = s.cfg.kbsrAddr ∧ statusWord (some 0x41#8) ≠ s.cfg.kbsrAddr) ∧
      (Memory.wf p.mem = true ∧ p.cfg.wf = true ∧ p.nextAnswer = some none ∧ p.pc + sext 0#9 ≠ p.cfg.kbsrAddr ∧
        p.mem.read (p.pc + sext 0#9) = p.cfg.kbsrAddr) ∧
      (Memory.wf z.mem = true ∧ z.cfg.wf = true ∧ z.nextAnswer = some none ∧ z.pc + sext 0#9 = z.cfg.kbsrAddr ∧ statusWord none = z.cfg.kbsrAddr) := by
  decide

/-- The fifth clause of LoadOfStatusPollsFirst with both polls answered: `KBSR_ADDR` = 0x8000, a character, then `none`. What comes after is worked by hand from
20_memory.md R55 and 42_load_store.md R163: KBDR holds the character, the destination the second status word. -/
def statusAtItsOwnValue : State := State.resetWith ⟨0x8000#16, 0x8002#16, 0x8000#16, true, [], []⟩ ⟨[some 0x41#8, none], .silent, []⟩

theorem witness_LoadOfStatusPollsFirst_twice :
    let s := statusAtItsOwnValue
    Memory.wf s.mem = true ∧ s.cfg.wf = true ∧ s.nextAnswer = some (some 0x41#8) ∧ s.pc + sext 0#9 = s.cfg.kbsrAddr ∧
      statusWord (some 0x41#8) = s.cfg.kbsrAddr ∧ (s.setAnswers s.console.answers.tail).nextAnswer = some none := by decide

theorem test_ldi_polls_twice :
    (nextOf (exec (.ldi .r0 0#9) statusAtItsOwnValue)).map (fun t => (t.reg .r0, t.cond, t.mem.read 0x8000#16, t.mem.read 0x8002#16)) =
      some (0#16, .zero, 0#16, 0x41#16) := by decide

theorem witness_StAndStrStoreTheWord : Memory.wf (start []).mem = true ∧ Memory.wf (memWrite 0xFFFF#16 0xFF00#16 (start [])).mem = true := by decide

theorem witness_StiStoresThroughThePointer :
    (Memory.wf (start []).mem = true ∧ (start []).pc + sext 0#9 ≠ (start []).cfg.kbsrAddr) ∧
      (Memory.wf (atStatus [none]).mem = true ∧ (atStatus [none]).pc + sext 0#9 = (atStatus [none]).cfg.kbsrAddr ∧ (atStatus [none]).cfg.wf = true ∧
        (atStatus [none]).nextAnswer = some none) := by decide

theorem witness_ZeroMaskBranchOnlyAdvancesPc :
    let s := memWrite 0x3000#16 0x01FF#16 (start [])
    s.run = .running ∧ s.pc ≠ s.cfg.kbsrAddr ∧ (s.mem.read s.pc).toNat < 0x200 := by decide

theorem witness_GetcReadsOneCharacter : (start [some 0xFF#8]).nextAnswer = some (some 0xFF#8) := by decide

theorem witness_InPromptsReadsAndEchoes : (startLinked [some 0#8, none]).nextAnswer = some (some 0#8) := by decide

/-- The empty string, and a string that ends just below `KBSR_ADDR`. -/
theorem witness_PutsPrintsTheString :
    ((start []).mem.read ((start []).reg .r0 + BitVec.ofNat 16 0) = 0#16 ∧ (start []).reg .r0 + BitVec.ofNat 16 0 ≠ (start []).cfg.kbsrAddr) ∧
      (let s := State.put ((start []).setReg .r0 0xFDFE#16) [(0xFDFE#16, 0x8000#16)]
       (∀ k (h : k < [0x8000#16].length), s.mem.read (s.reg .r0 + BitVec.ofNat 16 k) = [0x8000#16][k] ∧ [0x8000#16][k] ≠ 0#16) ∧
         s.mem.read (s.reg .r0 + BitVec.ofNat 16 1) = 0#16 ∧ (∀ k, k ≤ 1 → s.reg .r0 + BitVec.ofNat 16 k ≠ s.cfg.kbsrAddr)) := by decide

theorem witness_PutspPrintsThePackedString :
    let s := State.put ((start []).setReg .r0 0xFFFF#16) [(0xFFFF#16, 0x6100#16)]
    (∀ k (h : k < [0x6100#16].length), s.mem.read (s.reg .r0 + BitVec.ofNat 16 k) = [0x6100#16][k] ∧ [0x6100#16][k] ≠ 0#16) ∧
      s.mem.read (s.reg .r0 + BitVec.ofNat 16 1) = 0#16 ∧ (∀ k, k ≤ 1 → s.reg .r0 + BitVec.ofNat 16 k ≠ s.cfg.kbsrAddr) := by decide

theorem witness_UndefinedTrapCodeIsFatal :
    ((0x1F#8).toNat < 0x20 ∨ 0x25 < (0x1F#8).toNat) ∧ ((0x26#8).toNat < 0x20 ∨ 0x25 < (0x26#8).toNat) ∧ ((0xFF#8).toNat < 0x20 ∨ 0x25 < (0xFF#8).toNat) := by decide

theorem witness_AliasActsAsItsPrimaryForm :
    (∀ v, Instr.trapUndefined 0x26#8 = .trapUndefined v → definedTrapCode v = false) ∧ (∀ v, Instr.ret = .trapUndefined v → definedTrapCode v = false) :=
  ⟨fun v h => by cases h; rfl, fun v h => by cases h⟩

theorem witness_TrapLinkTouchesOnlyR7 :
    Instr.isTrap .halt = true ∧ (∃ t, exec .halt (start []) = .next t) ∧ Instr.isTrap .getc = true ∧ (∃ t, exec .getc (start [some 1#8]) = .next t) :=
  ⟨rfl, ⟨_, rfl⟩, rfl, ⟨_, rfl⟩⟩

theorem witness_StringReadOfStatusPolls :
    let s := atStatus [none]
    let c := atStatus [some 0x41#8]
    (Memory.wf s.mem = true ∧ s.cfg.wf = true ∧ s.reg .r0 = s.cfg.kbsrAddr ∧ s.nextAnswer = some none) ∧
      (Memory.wf c.mem = true ∧ c.cfg.wf = true ∧ c.reg .r0 = c.cfg.kbsrAddr ∧ c.nextAnswer = some (some 0x41#8) ∧
        c.cfg.kbsrAddr + 1#16 ≠ c.cfg.kbdrAddr ∧ c.mem.read (c.cfg.kbsrAddr + 1#16) = 0#16) := by decide

/-- Memory whose first `n` words are 1. -/
def ones : Nat → Memory
  | 0 => []
  | n + 1 => (ones n).write (BitVec.ofNat 16 n) 1#16

theorem ones_wf (n : Nat) : Memory.wf (ones n) = true := by
  induction n with
  | zero => rfl
  | succ n ih => exact Memory.write_wf ih _ _

theorem ones_read (n k : Nat) (h : k < n) (hn : n ≤ 65536) : (ones n).read (BitVec.ofNat 16 k) = 1#16 := by
  induction n with
  | zero => omega
  | succ n ih =>
    rw [ones, Memory.read_write (ones_wf n)]
    split
    · rfl
    · rename_i hne
      refine ih ?_ (by omega)
      have : k ≠ n := by rintro rfl; exact hne rfl
      omega

/-- No word is zero, and every poll brings a character that is not zero. -/
def NoZero (s : State) : Prop :=
  Memory.wf s.mem = true ∧ s.console.answers = [] ∧ s.console.rest = .repeats (some 0x41#8) ∧ ∀ a, s.mem.read a ≠ 0#16

theorem noZero_read {s : State} (h : NoZero s) (a : Word) : ∃ w t, memRead a s = .ok (w, t) ∧ w ≠ 0#16 ∧ NoZero t := by
  obtain ⟨hm, hl, hr, hz⟩ := h
  by_cases ha : a = s.cfg.kbsrAddr
  · subst ha
    have hm2 := Memory.write_wf hm s.cfg.kbsrAddr 0x8000#16
    have key : ∀ b, ((s.mem.write s.cfg.kbsrAddr 0x8000#16).write s.cfg.kbdrAddr (zext 0x41#8)).read b ≠ 0#16 := by
      intro b
      rw [Memory.read_write hm2, Memory.read_write hm]
      split
      · decide
      · split
        · decide
        · exact hz b
    exact ⟨_, _, memRead_status (poll_of_char (consoleIn_of_repeats hl hr)), key _, Memory.write_wf hm2 _ _, hl, hr, key⟩
  · exact ⟨_, s, memRead_plain ha, hz a, hm, hl, hr, hz⟩

theorem noZero_goesThrough (n : Nat) (a : Word) (s : State) (h : NoZero s) : ∃ t, GoesThrough putsChars n a s t ∧ NoZero t := by
  induction n generalizing a s with
  | zero => exact ⟨s, goesThrough_zero _ _ _, h⟩
  | succ n ih =>
    obtain ⟨w, u, hr, hw, hu⟩ := noZero_read h a
    obtain ⟨t, ht, hz⟩ := ih (a + 1#16) (u.consoleOut (putsChars w)) hu
    exact ⟨t, goesThrough_succ hr hw ht, hz⟩

theorem noZero_endless (p : Nat) (a : Word) (s : State) (h : NoZero s) : ∃ u, printPasses putsChars p a s = .fault (.stringNeverEnds u) := by
  induction p generalizing s with
  | zero => exact ⟨s, rfl⟩
  | succ p ih =>
    obtain ⟨t, ht, hz⟩ := noZero_goesThrough 65536 a s h
    rw [printPasses_of_goesThrough ht]
    exact ih t hz

/-- The first `n` words are 1, and every poll brings the character A. -/
def filled (n : Nat) : State := (State.resetWith (cfg false) ⟨[], .repeats (some 0x41#8), []⟩).setMem (ones n)

theorem filled_noZero (n : Nat) (hn : n = 65536) : NoZero (filled n) := by
  refine ⟨ones_wf n, rfl, rfl, fun a => ?_⟩
  have e := ones_read n a.toNat (by rw [hn]; exact a.isLt) (Nat.le_of_eq hn)
  rw [BitVec.ofNat_toNat, BitVec.setWidth_eq] at e
  rw [filled, State.setMem_mem, e]
  exact (by decide : (1#16 : Word) ≠ 0#16)

/-- A string with no zero word in any of the 65536 words. -/
theorem witness_HungStringNeverEnds :
    ∃ s u, Memory.wf s.mem = true ∧ printPasses putsChars (passesToDecide s) 0x4000#16 s = .fault (.stringNeverEnds u) := by
  obtain ⟨n, hn⟩ : ∃ n : Nat, n = 65536 := ⟨_, rfl⟩
  obtain ⟨u, hu⟩ := noZero_endless (passesToDecide (filled n)) 0x4000#16 (filled n) (filled_noZero n hn)
  exact ⟨filled n, u, (filled_noZero n hn).1, hu⟩

theorem witness_PutsAndPutspRunTheStringLoop :
    Memory.wf (start []).mem = true ∧ (Instr.puts = .puts ∧ putsChars = fun w => [lowByte w]) ∧
      StringEnds putsChars 0x4000#16 (start []) (start []) ∧ StringWaits putsChars 0xFE00#16 (start []) (start []) :=
  ⟨rfl, ⟨rfl, rfl⟩, .stop rfl, .wait rfl⟩

theorem witness_ReadOfStatusPollsTheConsole :
    Memory.wf (start []).mem = true ∧ (start []).cfg.wf = true ∧ (start []).nextAnswer = none ∧ (start [none]).nextAnswer = some none ∧
      (start [some 0#8]).nextAnswer = some (some 0#8) := by decide

theorem witness_ReadOfDataRegisterHasNoEffect : (start []).cfg.wf = true := by decide

theorem witness_MemWriteStoresUnconditionally : Memory.wf (memWrite 0#16 0x00FF#16 (start [])).mem = true := by decide

theorem witness_StatusStoreIsLostDataStoreIsKept :
    Memory.wf (start [none]).mem = true ∧ (start [none]).cfg.wf = true ∧ (start [none]).nextAnswer = some none := by decide

theorem witness_UnansweredConsoleReadDoesNotComplete :
    ((atStatus []).nextAnswer = none ∧ (atStatus []).pc + sext 0#9 = (atStatus []).cfg.kbsrAddr ∧ (atStatus []).reg .r1 + sext 0#6 = (atStatus []).cfg.kbsrAddr) ∧
      (let p := State.put (start []) [(0x3000#16, 0xFE00#16)]
       p.nextAnswer = none ∧ p.pc + sext 0#9 ≠ p.cfg.kbsrAddr ∧ p.mem.read (p.pc + sext 0#9) = p.cfg.kbsrAddr) ∧
      (start [none]).nextAnswer = some none := by decide

theorem witness_DecodeOfEncodeIsIdentity : Instr.wellFormed (.addReg .r7 .r0 .r7) = true ∧ Instr.wellFormed (.trap 0xFF#8) = true ∧ Instr.wellFormed .ret = true := by decide

/-- 2.2: 0x105A is 0x1042 with its ignored bits set. -/
theorem witness_IgnoredBitsDoNotMatter : 0x105A#16 &&& (decode 0x1042#16).usedBits = 0x1042#16 &&& (decode 0x1042#16).usedBits := by decide

theorem witness_StepRunsTheDecodedInstruction :
    ((start []).run = .running ∧ (start []).pc ≠ (start []).cfg.kbsrAddr) ∧
      ((atStatus [none]).run = .running ∧ (atStatus [none]).pc = (atStatus [none]).cfg.kbsrAddr ∧ Memory.wf (atStatus [none]).mem = true ∧ (atStatus [none]).cfg.wf = true ∧
        (atStatus [none]).nextAnswer = some none ∧ (atStatus []).nextAnswer = none) := by decide

theorem witness_PlacedInstructionRunsNext : Memory.wf (atStatus []).mem = true ∧ 16 ≤ 16 ∧ Memory.wf State.reset.mem = true ∧ 0 ≤ 16 := by decide

theorem witness_HaltedOrDeadCoreNeverChanges : ((start []).setRun .halted).run ≠ .running ∧ ((start []).setRun (.dead .reservedOpcode)).run ≠ .running := by decide

theorem inv_start (answers : List (Option Byte)) : (start answers).Inv := ⟨rfl, rfl, by simp [start, State.resetWith]⟩

theorem witness_StepKeepsInvariant : (start []).Inv ∧ ∃ t, step (start []) = .next t := ⟨inv_start [], next_of_isSome (by decide)⟩

theorem witness_ResetSatisfiesInvariant : Config.wf ⟨0xFFFF#16, 0#16, 0#16, true, [], []⟩ = true := by decide

/-- Two images that collide at 0x3001, booted over a HALTED core whose memory was not zero: the later word stays there, and the old word at 0x4000 is gone. -/
theorem witness_ResetAndBootLeaveTheResetValues :
    ∃ t, boot [[0x30#8, 0#8, 0x11#8, 0x11#8, 0x22#8, 0x22#8], [0x30#8, 1#8, 0x33#8, 0x33#8]] (haltRun (memWrite 0x4000#16 7#16 (start []))) = .next t ∧
      (t.mem.read 0x3000#16 == 0x1111#16 && t.mem.read 0x3001#16 == 0x3333#16 && t.mem.read 0x4000#16 == 0#16) = true := next_of_any _ (by decide)

theorem witness_ParametersFixedOutputGrowsAnswersAreTaken :
    ∃ t, step (memWrite 0x3000#16 0xF023#16 (start [some 0x41#8])) = .next t := next_of_isSome (by decide)

theorem witness_OnlyFiveRoutinesPrint :
    (Instr.prints (.st .r0 0#9) = false ∧ ∃ t, exec (.st .r0 0#9) (start []) = .next t) ∧
      ∃ t, step (memWrite 0x3000#16 0xF021#16 (start [])) = .next t ∧ (t.console.output != []) = true :=
  ⟨⟨rfl, ⟨_, rfl⟩⟩, next_of_any (fun t => t.console.output != []) (by decide)⟩

/-- HALT, RTI and an undefined code. -/
theorem witness_LeavesRunningOnlyByHaltOrFatal :
    (start []).run = .running ∧ (∃ t, step (memWrite 0x3000#16 0xF025#16 (start [])) = .next t ∧ (t.run != .running) = true) ∧
      (∃ t, step (memWrite 0x3000#16 0x8000#16 (start [])) = .next t ∧ (t.run != .running) = true) ∧
      (∃ t, step (memWrite 0x3000#16 0xF0FF#16 (start [])) = .next t ∧ (t.run != .running) = true) :=
  ⟨rfl, next_of_any _ (by decide), next_of_any _ (by decide), next_of_any _ (by decide)⟩

/-- Only a state that was already dead of it meets the second and third clause: that is what the rule says. -/
theorem witness_UndefinedOpcodeIsNeverRaised :
    (∃ t, exec (.lea .r0 0#9) ((start []).setRun (.dead .undefinedOpcode)) = .next t ∧ (t.run == .dead .undefinedOpcode) = true) ∧
      (∃ t, step ((start []).setRun (.dead .undefinedOpcode)) = .next t ∧ (t.run == .dead .undefinedOpcode) = true) :=
  ⟨next_of_any _ (by decide), next_of_any _ (by decide)⟩

theorem witness_OnlyControlTransfersWritePc :
    Instr.isControl .rti = false ∧ (∃ t, exec .rti (start []) = .next t) ∧ Instr.isControl (.ld .r0 0#9) = false ∧ ∃ t, exec (.ld .r0 0#9) (start []) = .next t :=
  ⟨rfl, ⟨_, rfl⟩, rfl, next_of_isSome (by decide)⟩

theorem witness_RegistersWrittenOnlyAsListed :
    (∃ t, exec (.jsrr .r7) (start []) = .next t) ∧ (∃ t, exec .getc (startLinked [some 1#8]) = .next t) := ⟨⟨_, rfl⟩, ⟨_, rfl⟩⟩

theorem witness_MemoryAndAnswersChangeOnlyByStoresAndPolls :
    (∃ t, exec (.ld .r0 0#9) (atStatus [some 1#8]) = .next t) ∧ Instr.isStore (.ld .r0 0#9) = false ∧
      (∃ t, exec .getc (start [some 1#8]) = .next t) ∧ Instr.isStore .getc = false ∧ Instr.readsMemory .getc = false ∧
      (∃ t, exec .out (start []) = .next t) ∧ Instr.readsMemory .out = false ∧ Instr.readsConsole .out = false :=
  ⟨next_of_isSome (by decide), rfl, ⟨_, rfl⟩, rfl, rfl, ⟨_, rfl⟩, rfl, rfl⟩

theorem witness_StoreIsSeenByTheNextFetch :
    let s := memWrite 0x3000#16 0x3000#16 (start [])
    Memory.wf s.mem = true ∧ s.run = .running ∧ s.pc ≠ s.cfg.kbsrAddr ∧ s.pc + 1#16 ≠ s.cfg.kbsrAddr ∧
      decode (s.mem.read s.pc) = .st .r0 0#9 ∧ sext 0#9 = 0#16 := by decide

theorem witness_InstructionWithoutConsoleInputCompletes :
    Instr.readsConsole (.ldi .r0 0#9) = false ∧ Instr.routine (.ldi .r0 0#9) ≠ some .puts ∧ Instr.routine (.ldi .r0 0#9) ≠ some .putsp ∧
      (∀ a ∈ dataReads (.ldi .r0 0#9) (start []), a ≠ (start []).cfg.kbsrAddr) := by
  refine ⟨by decide, by decide, by decide, fun a ha => ?_⟩
  simp only [dataReads, List.mem_cons, List.not_mem_nil, or_false] at ha
  rcases ha with rfl | rfl
  · decide
  · show Memory.read [] _ ≠ 0xFE00#16
    rw [Memory.read_nil]
    decide

theorem witness_AnsweredReadsComplete :
    2 ≤ (start [none, none]).console.answers.length ∧ (State.resetWith (cfg false) ⟨[], .repeats none, []⟩).console.rest ≠ .silent := by decide

theorem witness_StuckStepIsStillRunning : ∃ u, step (memWrite 0x3000#16 0xF023#16 (start [none])) = .fault (.consoleAnsweredNone u) := ⟨_, rfl⟩

/-- An image that ends exactly at address 0xFFFF, and one that has no word. -/
theorem witness_LoadImageStoresItsWords :
    Memory.wf (start []).mem = true ∧ (0xFF#8).toNat * 256 + (0xFF#8).toNat + [0x12#8, 0x34#8].length / 2 ≤ 65536 ∧
      (0x30#8).toNat * 256 + (0#8).toNat + ([] : List Byte).length / 2 ≤ 65536 := by decide

theorem witness_LaterImageWins :
    Memory.wf (start []).mem = true ∧ ∃ t, loadImages [[0x30#8, 0#8, 1#8, 1#8], [0x30#8, 0#8, 2#8, 2#8]] (start []) = .next t :=
  ⟨rfl, next_of_isSome (by decide)⟩

theorem witness_ImageCornerCases :
    ([] : List Byte).length % 2 = 0 ∧ 65536 < (0xFF#8).toNat * 256 + (0xFF#8).toNat + [1#8, 2#8, 3#8, 4#8].length / 2 := by decide

end Sys2Proof.Tests
end

section
/-! Proofs for 00_scope.md: sign extension (R11), and what `TRAP_LINKS_R7` can change (43_trap.md R182). -/

namespace Sys2Proof.Machine

/-! ## Sign extension -/

/-- The bits of a sign-extended field (00_scope.md R11). -/
theorem sext_getLsbD {w : Nat} (f : BitVec w) {i : Nat} (hi : i < 16) :
    (sext f).getLsbD i = if i < w then f.getLsbD i else f.getLsbD (w - 1) := by
  rw [sext, BitVec.getLsbD_signExtend, ← BitVec.msb_eq_getLsbD_last]
  simp [hi]

/-- A sign-extended field as a number: a field whose top bit is set gains all the bits above it, which together weigh `65536 - 2^w`. -/
theorem sext_toNat {w : Nat} (f : BitVec w) (hw : w ≤ 16) :
    (sext f).toNat = f.toNat + if 2 ^ (w - 1) ≤ f.toNat then 65536 - 2 ^ w else 0 := by
  rw [sext, BitVec.toNat_signExtend, BitVec.toNat_setWidth_of_le hw, BitVec.msb_eq_decide]
  simp

/-- Settles O2: the bits and the number of a sign-extended field. -/
theorem sextCopiesTopBitUpward : Obligations.SextCopiesTopBitUpward := by
  intro w f _ hw
  have hpow : 2 ^ w ≤ 65536 := Nat.pow_le_pow_right Nat.two_pos hw
  refine ⟨fun i hi => sext_getLsbD f hi, fun hlow => ?_, fun hhigh => ?_⟩
  · rw [sext_toNat f hw, if_neg (Nat.not_le.2 hlow), Nat.add_zero]
  · rw [sext_toNat f hw, if_pos hhigh]
    exact (Nat.add_sub_assoc hpow _).symm

/-! ## The linked twin of a state

What follows the link of R7 in a TRAP never reads R7 or `TRAP_LINKS_R7`. So a routine run from the state with R7 linked does what it does from the
state without the link, step by step, and ends in the linked twin of the state that run ends in. -/

/-- The state with R7 holding `p` and `TRAP_LINKS_R7` true, all else as in `s`. -/
def State.linkedTwin (p : Word) (s : State) : State :=
  { s.setReg .r7 p with cfg := { s.cfg with trapLinksR7 := true } }

section
variable (p : Word) (s : State)

@[simp] theorem State.linkedTwin_pc : (s.linkedTwin p).pc = s.pc := rfl
@[simp] theorem State.linkedTwin_cond : (s.linkedTwin p).cond = s.cond := rfl
@[simp] theorem State.linkedTwin_mem : (s.linkedTwin p).mem = s.mem := rfl
@[simp] theorem State.linkedTwin_run : (s.linkedTwin p).run = s.run := rfl
@[simp] theorem State.linkedTwin_console : (s.linkedTwin p).console = s.console := rfl
@[simp] theorem State.linkedTwin_reg (j : Reg) : (s.linkedTwin p).reg j = if j = .r7 then p else s.reg j :=
  State.setReg_reg s .r7 j p

/-- With `TRAP_LINKS_R7` true the link of a TRAP gives the twin that holds the incremented `pc`; the state it is the twin of is the one a TRAP with
`TRAP_LINKS_R7` false goes on with. -/
theorem linkTrap_links_eq_linkedTwin :
    linkTrap { s with cfg := { s.cfg with trapLinksR7 := true } } =
      (linkTrap { s with cfg := { s.cfg with trapLinksR7 := false } }).linkedTwin s.pc := by
  rw [linkTrap_of_links _ rfl, linkTrap_of_not_links _ rfl]
  rfl

end

variable {p : Word} {s t : State}

theorem consoleIn_linkedTwin {a : Option Byte} (h : consoleIn s = .ok (a, t)) :
    consoleIn (s.linkedTwin p) = .ok (a, t.linkedTwin p) := by
  rw [consoleIn_ok h]
  exact consoleIn_of_nextAnswer (nextAnswer_of_consoleIn (s := s) h)

theorem poll_linkedTwin (h : poll s = .ok t) : poll (s.linkedTwin p) = .ok (t.linkedTwin p) := by
  obtain ⟨a, hc, rfl⟩ := poll_ok h
  cases a with
  | none => exact poll_of_none (consoleIn_linkedTwin hc)
  | some c => exact poll_of_char (consoleIn_linkedTwin hc)

theorem memRead_linkedTwin {a w : Word} (h : memRead a s = .ok (w, t)) :
    memRead a (s.linkedTwin p) = .ok (w, t.linkedTwin p) := by
  obtain ⟨rfl, ⟨hne, rfl⟩ | ⟨rfl, hp⟩⟩ := memRead_ok h
  · exact memRead_plain hne
  · exact memRead_status (poll_linkedTwin hp)

/-- GETC's and IN's read from the twin, when what follows the read keeps to the twin. -/
theorem readChar_linkedTwin {next : Byte → State → Outcome}
    (hnext : ∀ c u v, next c u = .next v → next c (u.linkedTwin p) = .next (v.linkedTwin p))
    (h : readChar s next = .next t) : readChar (s.linkedTwin p) next = .next (t.linkedTwin p) := by
  obtain ⟨c, hc, hn⟩ := readChar_next h
  rw [readChar, consoleIn_linkedTwin hc]
  exact hnext _ _ _ hn

theorem printString_linkedTwin {chars : Word → List Byte} (h : printString chars s = .next t) :
    printString chars (s.linkedTwin p) = .next (t.linkedTwin p) := by
  obtain ⟨v, hv, rfl⟩ := printString_related (fun s t => t = s.linkedTwin p)
    (fun s _ u a w hR hr => ⟨u.linkedTwin p, hR ▸ memRead_linkedTwin hr, rfl⟩)
    (fun s _ cs hR => hR ▸ rfl) rfl rfl rfl h
  exact hv

/-- Every routine, the fatal one for an undefined code too, does from the linked twin what it does without the link (43_trap.md R182). -/
theorem trapDispatch_linkedTwin {v : BitVec 8} (h : trapDispatch v s = .next t) :
    trapDispatch v (s.linkedTwin p) = .next (t.linkedTwin p) := by
  unfold trapDispatch at h ⊢
  generalize routineOfCode v = r at h ⊢
  cases r with
  | none => cases h; rfl
  | some routine =>
    cases routine with
    | getc => exact readChar_linkedTwin (fun c u v hn => by cases hn; rfl) h
    | out => cases h; rfl
    | puts => exact printString_linkedTwin h
    | inChar => exact readChar_linkedTwin (s := s.consoleOut s.cfg.inPrompt) (fun c u v hn => by cases hn; rfl) h
    | putsp => exact printString_linkedTwin h
    | halt => cases h; rfl

/-- No routine writes R7 itself (43_trap.md R182, R183). -/
theorem trapDispatch_keeps_r7 {v : BitVec 8} (h : trapDispatch v s = .next t) : t.reg .r7 = s.reg .r7 := by
  unfold trapDispatch at h
  generalize routineOfCode v = r at h
  cases r with
  | none => cases h; rfl
  | some routine =>
    cases routine with
    | getc => obtain ⟨c, -, hn⟩ := readChar_next h; cases hn; rfl
    | out => cases h; rfl
    | puts => exact congrArg (Regs.get · .r7) (printString_keeps h).regs
    | inChar => obtain ⟨c, -, hn⟩ := readChar_next h; cases hn; rfl
    | putsp => exact congrArg (Regs.get · .r7) (printString_keeps h).regs
    | halt => cases h; rfl

/-- Every TRAP, by whatever row, links R7 and then dispatches on a code (43_trap.md R180, 30_encoding.md R92). -/
theorem exec_of_isTrap {i : Instr} (h : i.isTrap = true) : ∃ v, ∀ s, exec i s = trapDispatch v (linkTrap s) := by
  cases i with
  | trap v => exact ⟨v, fun _ => rfl⟩
  | getc => exact ⟨TrapRoutine.getc.code, fun _ => rfl⟩
  | out => exact ⟨TrapRoutine.out.code, fun _ => rfl⟩
  | puts => exact ⟨TrapRoutine.puts.code, fun _ => rfl⟩
  | inChar => exact ⟨TrapRoutine.inChar.code, fun _ => rfl⟩
  | putsp => exact ⟨TrapRoutine.putsp.code, fun _ => rfl⟩
  | halt => exact ⟨TrapRoutine.halt.code, fun _ => rfl⟩
  | trapUndefined _ => exact ⟨0xFF#8, fun _ => rfl⟩
  | _ => cases h

/-- Settles O26: the TRAP with `TRAP_LINKS_R7` true ends in the linked twin of the state the TRAP without it ends in. -/
theorem trapLinkTouchesOnlyR7 : Obligations.TrapLinkTouchesOnlyR7 := by
  intro i s t htrap h
  obtain ⟨v, hexec⟩ := exec_of_isTrap htrap
  rw [hexec] at h
  refine ⟨?_, t.linkedTwin s.pc, ?_, ?_, ?_, State.linkedTwin_pc .., State.linkedTwin_cond .., State.linkedTwin_mem ..,
    State.linkedTwin_run .., State.linkedTwin_console ..⟩
  · rw [trapDispatch_keeps_r7 h, linkTrap_of_not_links _ rfl]
    rfl
  · rw [hexec, linkTrap_links_eq_linkedTwin]
    exact trapDispatch_linkedTwin h
  · rw [State.linkedTwin_reg, if_pos rfl]
  · intro j hj
    rw [State.linkedTwin_reg, if_neg (by simpa using hj)]

end Sys2Proof.Machine
end

section
/-! Proofs for 10_state.md: what an instruction that completes can do, said once, and from it the rules over all instructions: who writes `cond`,
the registers, `pc` and `run`. Then the step of R33 and the values reset and boot leave (R38). -/

namespace Sys2Proof.Machine

/-! ## The condition code's three cases -/

/-- Settles O1, by the branches of `setcc` (10_state.md R27): a value with bit 15 set is not 0. -/
theorem setccHasThreeCases : Obligations.SetccHasThreeCases := by
  intro v
  refine ⟨fun h0 => by rw [setcc, if_pos h0], fun h15 => ?_, fun h0 h15 => by rw [setcc, if_neg h0, h15]; rfl⟩
  have h0 : v ≠ 0#16 := by rintro rfl; simp at h15
  rw [setcc, if_neg h0, if_pos h15]

/-! ## What an instruction that completes can do -/

theorem KeepsCore.refl (s : State) : KeepsCore s s := ⟨rfl, rfl, rfl, rfl, rfl, rfl, rfl⟩

theorem KeepsCore.trans {s t u : State} (h : KeepsCore s t) (g : KeepsCore t u) : KeepsCore s u :=
  ⟨g.regs.trans h.regs, g.pc.trans h.pc, g.cond.trans h.cond, g.run.trans h.run, g.cfg.trans h.cfg, g.output.trans h.output,
    g.rest.trans h.rest⟩

/-- The run state after a trap routine, and after the fatal end of a TRAP whose code selects none (43_trap.md R189, R190). -/
def RunState.afterRoutine (run : RunState) : Option TrapRoutine → RunState
  | some .halt => .halted
  | none => .dead .undefinedTrap
  | some _ => run

/-- The one register a trap routine writes: R0, by GETC and IN (43_trap.md R183). -/
def routineRegs (r : Option TrapRoutine) : List Reg := if r == some .getc || r == some .inChar then [.r0] else []

/-- What the dispatch of a TRAP on the routine `r` keeps, and how it leaves `run` (43_trap.md R183). -/
structure RoutineResult (r : Option TrapRoutine) (s t : State) : Prop where
  regs : SameRegsExcept s t (routineRegs r)
  pc : t.pc = s.pc
  cond : t.cond = s.cond
  run : t.run = s.run.afterRoutine r

theorem KeepsButConsole.sameRegs {s t : State} (k : KeepsButConsole s t) (rs : List Reg) : SameRegsExcept s t rs :=
  fun j _ => congrArg (Regs.get · j) k.regs

theorem sameRegsExcept_setReg (s : State) (d : Reg) (v : Word) : SameRegsExcept s (s.setReg d v) [d] := fun j hj => by
  rw [State.setReg_reg, if_neg (by simpa using hj)]

theorem trapDispatch_result {v : BitVec 8} {s t : State} (h : trapDispatch v s = .next t) :
    RoutineResult (routineOfCode v) s t := by
  unfold trapDispatch at h
  generalize routineOfCode v = r at h ⊢
  cases r with
  | none => cases h; exact ⟨fun _ _ => rfl, rfl, rfl, rfl⟩
  | some routine =>
    cases routine with
    | getc | inChar =>
      obtain ⟨c, -, hn⟩ := readChar_next h
      cases hn
      exact ⟨sameRegsExcept_setReg _ _ _, rfl, rfl, rfl⟩
    | puts | putsp =>
      have k := printString_keeps h
      exact ⟨k.sameRegs _, k.pc, k.cond, k.run⟩
    | out | halt => cases h; exact ⟨fun _ _ => rfl, rfl, rfl, rfl⟩

/-- `exec_of_isTrap` with the code tied to the instruction: every TRAP dispatches on a code of its own routine (30_encoding.md R92). -/
theorem exec_eq_trapDispatch {i : Instr} (h : i.isTrap = true) :
    ∃ v, routineOfCode v = i.routine ∧ ∀ s, exec i s = trapDispatch v (linkTrap s) := by
  cases i with
  | trap v => exact ⟨v, rfl, fun _ => rfl⟩
  | getc => exact ⟨TrapRoutine.getc.code, rfl, fun _ => rfl⟩
  | out => exact ⟨TrapRoutine.out.code, rfl, fun _ => rfl⟩
  | puts => exact ⟨TrapRoutine.puts.code, rfl, fun _ => rfl⟩
  | inChar => exact ⟨TrapRoutine.inChar.code, rfl, fun _ => rfl⟩
  | putsp => exact ⟨TrapRoutine.putsp.code, rfl, fun _ => rfl⟩
  | halt => exact ⟨TrapRoutine.halt.code, rfl, fun _ => rfl⟩
  | trapUndefined _ => exact ⟨0xFF#8, rfl, fun _ => rfl⟩
  | _ => cases h

theorem exec_trap_result {i : Instr} {s t : State} (hi : i.isTrap = true) (h : exec i s = .next t) :
    RoutineResult i.routine (linkTrap s) t := by
  obtain ⟨v, hv, hexec⟩ := exec_eq_trapDispatch hi
  rw [hexec] at h
  exact hv ▸ trapDispatch_result h

/-- Everything an instruction that completes can do, by its kind; `u` is the state its reads lead to. -/
inductive Completes (i : Instr) (s t : State) : Prop
  | dest {d : Reg} {v : Word} {u : State} (hd : i.dest = some d) (hc : i.isControl = false) (k : KeepsCore s u)
      (ht : t = u.writeDest d v)
  | store {a v : Word} {u : State} (hd : i.dest = none) (hs : i.isStore = true) (k : KeepsCore s u) (ht : t = memWrite a v u)
  | control {target : Word} (hd : i.dest = none) (hc : i.isControl = true)
      (r : ControlResult s t target (i.regsWritten s.cfg.trapLinksR7))
  | trap (hd : i.dest = none) (hi : i.isTrap = true) (r : RoutineResult i.routine (linkTrap s) t)
  | fatal (hd : i.dest = none) (hi : i = .rti ∨ i = .res) (ht : t = raiseFatal .reservedOpcode s)

theorem exec_completes {i : Instr} {s t : State} (h : exec i s = .next t) : Completes i s t := by
  cases i with
  | addReg | addImm | andReg | andImm | not | lea => cases h; exact .dest rfl rfl (.refl s) rfl
  | ld | ldr =>
    obtain ⟨w, u, hr, hn⟩ := withRead_next h
    cases hn
    exact .dest rfl rfl (memRead_keeps hr) rfl
  | ldi =>
    obtain ⟨p, u, hp, hn⟩ := withRead_next h
    obtain ⟨w, v, hw, hn⟩ := withRead_next hn
    cases hn
    exact .dest rfl rfl ((memRead_keeps hp).trans (memRead_keeps hw)) rfl
  | st | str => cases h; exact .store rfl rfl (.refl s) rfl
  | sti =>
    obtain ⟨p, u, hr, hn⟩ := withRead_next h
    cases hn
    exact .store rfl rfl (memRead_keeps hr) rfl
  | br | jmp | ret => cases h; exact .control rfl rfl ⟨rfl, fun _ _ => rfl, rfl, fun _ _ => rfl, rfl, rfl, rfl⟩
  | jsr | jsrr =>
    cases h
    exact .control rfl rfl ⟨rfl, sameRegsExcept_setReg _ _ _, rfl, fun _ _ => rfl, rfl, rfl, rfl⟩
  | trap | getc | out | puts | inChar | putsp | halt | trapUndefined => exact .trap rfl rfl (exec_trap_result rfl h)
  | rti | res => cases h; exact .fatal rfl (by simp) rfl

/-! ## Who writes `pc` and the registers -/

/-- Settles O51: of the kinds of `Completes` only a control transfer writes `pc`. -/
theorem onlyControlTransfersWritePc : Obligations.OnlyControlTransfersWritePc := by
  intro i s t hi h
  cases exec_completes h with
  | dest _ _ k ht => subst ht; exact k.pc
  | store _ _ k ht => subst ht; exact k.pc
  | control _ hc _ => rw [hi] at hc; cases hc
  | trap _ _ r => exact r.pc
  | fatal _ _ ht => subst ht; rfl

/-- The registers of an instruction that is no control transfer (10_state.md R22). -/
theorem Instr.regsWritten_of_not_control {i : Instr} (h : i.isControl = false) (links : Bool) :
    i.regsWritten links = i.dest.toList ++ routineRegs i.routine ++ (if i.isTrap && links then [.r7] else []) := by
  cases i with
  | jsr | jsrr => cases h
  | _ => rfl

theorem Instr.isControl_of_isTrap {i : Instr} (h : i.isTrap = true) : i.isControl = false := by
  cases i with
  | br | jmp | ret | jsr | jsrr => cases h
  | _ => rfl

/-- The link of a TRAP changes no register when `TRAP_LINKS_R7` is false, and only R7 when it is true (43_trap.md R182). -/
theorem sameRegsExcept_linkTrap (s : State) : SameRegsExcept s (linkTrap s) (if s.cfg.trapLinksR7 then [.r7] else []) := by
  cases hl : s.cfg.trapLinksR7 with
  | false => rw [linkTrap_of_not_links s hl]; exact fun _ _ => rfl
  | true => rw [linkTrap_of_links s hl]; exact sameRegsExcept_setReg _ _ _

/-- Settles O52, kind by kind; a TRAP's registers are its routine's and, where it links, R7. -/
theorem registersWrittenOnlyAsListed : Obligations.RegistersWrittenOnlyAsListed := by
  intro i s t h j hj
  cases exec_completes h with
  | @dest d v u hd hc k ht =>
    have hne : j ≠ d := by
      rintro rfl
      exact hj (by simp [Instr.regsWritten_of_not_control hc, hd])
    subst ht
    rw [State.writeDest_reg, if_neg hne]
    exact congrArg (Regs.get · j) k.regs
  | store _ _ k ht => subst ht; exact congrArg (Regs.get · j) k.regs
  | control _ _ r => exact r.regs j hj
  | trap hd hi r =>
    simp only [Instr.regsWritten_of_not_control (Instr.isControl_of_isTrap hi), hd, hi, Option.toList_none, List.nil_append,
      Bool.true_and, List.mem_append, not_or] at hj
    exact (r.regs j hj.1).trans (sameRegsExcept_linkTrap s j hj.2)
  | fatal _ _ ht => subst ht; rfl

/-! ## Who writes `cond` -/

theorem exec_cond_of_dest {i : Instr} {s t : State} {d : Reg} (hd : i.dest = some d) (h : exec i s = .next t) :
    t.cond = setcc (t.reg d) := by
  cases exec_completes h with
  | dest hd' _ _ ht =>
    rw [hd] at hd'
    cases hd'
    subst ht
    rw [State.writeDest_cond, State.writeDest_reg, if_pos rfl]
  | store hd' | control hd' | trap hd' | fatal hd' => rw [hd] at hd'; cases hd'

theorem exec_cond_of_no_dest {i : Instr} {s t : State} (hd : i.dest = none) (h : exec i s = .next t) : t.cond = s.cond := by
  cases exec_completes h with
  | dest hd' => rw [hd] at hd'; cases hd'
  | store _ _ k ht => subst ht; exact k.cond
  | control _ _ r => exact r.cond
  | trap _ _ r => exact r.cond
  | fatal _ _ ht => subst ht; rfl

/-! ## Nobody but BR reads `cond` (10_state.md R29)

What completes from `s` completes from `s` with another `cond`, in the state with that `cond`, unless a destination write has set it. -/

section
variable {s t : State} {c : Cond}

theorem consoleIn_setCond {a : Option Byte} (h : consoleIn s = .ok (a, t)) : consoleIn (s.setCond c) = .ok (a, t.setCond c) := by
  rw [consoleIn_ok h]
  exact consoleIn_of_nextAnswer (nextAnswer_of_consoleIn (s := s) h)

theorem poll_setCond (h : poll s = .ok t) : poll (s.setCond c) = .ok (t.setCond c) := by
  obtain ⟨a, ha, rfl⟩ := poll_ok h
  cases a with
  | none => exact poll_of_none (consoleIn_setCond ha)
  | some b => exact poll_of_char (consoleIn_setCond ha)

theorem memRead_setCond {a w : Word} (h : memRead a s = .ok (w, t)) : memRead a (s.setCond c) = .ok (w, t.setCond c) := by
  obtain ⟨rfl, ⟨hne, rfl⟩ | ⟨rfl, hp⟩⟩ := memRead_ok h
  · exact memRead_plain hne
  · exact memRead_status (s := s.setCond c) (poll_setCond hp)

theorem withRead_setCond {a : Word} {next : Word → State → Outcome} {u : State}
    (hnext : ∀ w v, next w v = .next t → next w (v.setCond c) = .next u) (h : withRead a s next = .next t) :
    withRead a (s.setCond c) next = .next u := by
  obtain ⟨w, v, hr, hn⟩ := withRead_next h
  rw [withRead_of_ok (memRead_setCond hr)]
  exact hnext w v hn

theorem readChar_setCond {next : Byte → State → Outcome}
    (hnext : ∀ b u, next b u = .next t → next b (u.setCond c) = .next (t.setCond c)) (h : readChar s next = .next t) :
    readChar (s.setCond c) next = .next (t.setCond c) := by
  obtain ⟨b, hb, hn⟩ := readChar_next h
  rw [readChar, consoleIn_setCond hb]
  exact hnext _ _ hn

theorem printString_setCond {chars : Word → List Byte} (h : printString chars s = .next t) :
    printString chars (s.setCond c) = .next (t.setCond c) := by
  obtain ⟨v, hv, rfl⟩ := printString_related (fun s t => t = s.setCond c)
    (fun s _ u a w hR hr => ⟨u.setCond c, hR ▸ memRead_setCond hr, rfl⟩)
    (fun s _ cs hR => hR ▸ rfl) rfl rfl rfl h
  exact hv

theorem trapDispatch_setCond {v : BitVec 8} (h : trapDispatch v s = .next t) :
    trapDispatch v (s.setCond c) = .next (t.setCond c) := by
  unfold trapDispatch at h ⊢
  generalize routineOfCode v = r at h ⊢
  cases r with
  | none => cases h; rfl
  | some routine =>
    cases routine with
    | getc => exact readChar_setCond (fun _ _ hn => by cases hn; rfl) h
    | inChar => exact readChar_setCond (s := s.consoleOut s.cfg.inPrompt) (fun _ _ hn => by cases hn; rfl) h
    | puts | putsp => exact printString_setCond h
    | out | halt => cases h; rfl

theorem exec_setCond_of_isTrap {i : Instr} (hi : i.isTrap = true) (h : exec i s = .next t) :
    exec i (s.setCond c) = .next (t.setCond c) := by
  obtain ⟨v, hexec⟩ := exec_of_isTrap hi
  rw [hexec] at h ⊢
  exact trapDispatch_setCond (s := linkTrap s) h

/-- An instruction with a destination register ends in the very same state: its own write of `cond` covers what `cond` held. -/
theorem exec_setCond_of_dest {i : Instr} {d : Reg} (hd : i.dest = some d) (h : exec i s = .next t) :
    exec i (s.setCond c) = .next t := by
  cases i with
  | addReg | addImm | andReg | andImm | not | lea => cases h; rfl
  | ld | ldr => exact withRead_setCond (fun _ _ hn => by cases hn; rfl) h
  | ldi => exact withRead_setCond (fun _ _ hn => withRead_setCond (fun _ _ hn => by cases hn; rfl) hn) h
  | _ => cases hd

theorem exec_setCond_of_no_dest {i : Instr} (hd : i.dest = none) (hbr : ∀ mask off, i ≠ .br mask off) (h : exec i s = .next t) :
    exec i (s.setCond c) = .next (t.setCond c) := by
  cases i with
  | br mask off => exact absurd rfl (hbr mask off)
  | st | str | jsr | jsrr | jmp | ret | rti | res => cases h; rfl
  | sti => exact withRead_setCond (fun _ _ hn => by cases hn; rfl) h
  | trap | getc | out | puts | inChar | putsp | halt | trapUndefined => exact exec_setCond_of_isTrap rfl h
  | _ => cases hd

end

/-- Settles O3: `cond` by whether there is a destination register, and noninterference from the run with another `cond`. -/
theorem condWrittenByDestWritesAndReadByBrOnly : Obligations.CondWrittenByDestWritesAndReadByBrOnly := by
  intro i s t h
  refine ⟨fun d hd => exec_cond_of_dest hd h, fun hd => exec_cond_of_no_dest hd h, fun hbr c => ?_⟩
  cases hd : i.dest with
  | some d =>
    exact ⟨t, exec_setCond_of_dest hd h, rfl, rfl, rfl, rfl, rfl, rfl, (nomatch ·), fun _ => rfl⟩
  | none =>
    exact ⟨t.setCond c, exec_setCond_of_no_dest hd hbr h, rfl, rfl, rfl, rfl, rfl, rfl, fun _ => rfl, fun hn => absurd rfl hn⟩

/-! ## Who writes `run` -/

/-- `run` after an instruction that completes: as it was, as a TRAP's routine leaves it, or dead by RTI or RES. -/
theorem exec_run {i : Instr} {s t : State} (h : exec i s = .next t) :
    t.run = s.run ∨ (i.isTrap = true ∧ t.run = s.run.afterRoutine i.routine) ∨
      ((i = .rti ∨ i = .res) ∧ t.run = .dead .reservedOpcode) := by
  cases exec_completes h with
  | dest _ _ k ht => subst ht; exact .inl k.run
  | store _ _ k ht => subst ht; exact .inl k.run
  | control _ _ r => exact .inl r.run
  | trap _ hi r => exact .inr (.inl ⟨hi, r.run⟩)
  | fatal _ hi ht => subst ht; exact .inr (.inr ⟨hi, rfl⟩)

/-- The decoder cuts out no TRAP_UNDEFINED: its row has no match and mask (30_encoding.md R93). -/
theorem decodePrimary_ne_trapUndefined (ir : Word) (v : BitVec 8) : decodePrimary ir ≠ .trapUndefined v := by
  fun_cases decodePrimary ir <;> simp

theorem nameTrap_wellFormed (v : BitVec 8) : (nameTrap v).wellFormed = true := by
  obtain ⟨hv, hn⟩ | ⟨r, -, hn⟩ := nameTrap_cases v <;> rw [hn]
  · simp [Instr.wellFormed, (routineOfCode_eq_none v).1 hv]
  · cases r <;> rfl

theorem nameJmp_wellFormed (base : Reg) : (nameJmp base).wellFormed = true := by
  cases base <;> rfl

theorem Instr.named_wellFormed {i : Instr} (h : ∀ v, i ≠ .trapUndefined v) : i.named.wellFormed = true := by
  cases i with
  | trap v => exact nameTrap_wellFormed v
  | jmp base => exact nameJmp_wellFormed base
  | trapUndefined v => exact absurd rfl (h v)
  | _ => rfl

theorem decode_wellFormed (ir : Word) : (decode ir).wellFormed = true :=
  Instr.named_wellFormed (decodePrimary_ne_trapUndefined ir)

/-- A well-formed instruction with a routine is the alias row of that routine (30_encoding.md R93). -/
theorem Instr.eq_of_routine {i : Instr} {r : TrapRoutine} (hw : i.wellFormed = true) (hr : i.routine = some r) : i = r.instr := by
  cases i with
  | trap v =>
    have hv : routineOfCode v = none := (routineOfCode_eq_none v).2 (by simpa [Instr.wellFormed] using hw)
    rw [Instr.routine, hv] at hr
    cases hr
  | getc | out | puts | inChar | putsp | halt => cases hr; rfl
  | _ => cases hr

/-- A well-formed TRAP without a routine is TRAP with an undefined code (30_encoding.md R92). -/
theorem Instr.eq_trap_of_no_routine {i : Instr} (hw : i.wellFormed = true) (hi : i.isTrap = true) (hr : i.routine = none) :
    ∃ v, i = .trap v ∧ definedTrapCode v = false := by
  cases i with
  | trap v => exact ⟨v, rfl, (routineOfCode_eq_none v).1 hr⟩
  | trapUndefined => cases hw
  | getc | out | puts | inChar | putsp | halt => cases hr
  | _ => cases hi

theorem fetch_run {s t : State} {ir : Word} (h : fetch s = .ok (ir, t)) : t.run = s.run := by
  obtain ⟨u, hr, rfl⟩ := fetch_ok h
  exact (memRead_keeps hr).run

/-- Settles O49: the fetch keeps RUNNING, so the instruction has written `run`; a TRAP that did is HALT or has no routine. -/
theorem leavesRunningOnlyByHaltOrFatal : Obligations.LeavesRunningOnlyByHaltOrFatal := by
  intro s t hs h ht
  obtain ⟨hs', -⟩ | ⟨-, ir, u, hf, hx⟩ := step_next h
  · exact absurd hs hs'
  have hu : u.run = .running := (fetch_run hf).trans hs
  have hw := decode_wellFormed ir
  refine ⟨ir, u, hf, ?_⟩
  obtain hrun | ⟨hi, hrun⟩ | hfatal := exec_run hx
  · exact absurd (hrun.trans hu) ht
  · cases hr : (decode ir).routine with
    | none =>
      obtain ⟨v, hv, hundef⟩ := Instr.eq_trap_of_no_routine hw hi hr
      exact .inr (.inr ⟨v, hv, hundef, by rw [hrun, hr]; rfl⟩)
    | some r =>
      rw [hr, hu] at hrun
      cases r with
      | halt => exact .inl ⟨Instr.eq_of_routine hw hr, hrun⟩
      | getc | out | puts | inChar | putsp => exact absurd hrun ht
  · exact .inr (.inl hfatal)

/-! ## The step (10_state.md R33) -/

/-- Settles O43, by the two run states that are not RUNNING. -/
theorem haltedOrDeadCoreNeverChanges : Obligations.HaltedOrDeadCoreNeverChanges := by
  intro s h
  cases hr : s.run with
  | running => exact absurd hr h
  | halted => exact step_of_halted hr
  | dead k => exact step_of_dead hr

theorem fetch_of_memRead {s t : State} {ir : Word} (h : memRead s.pc s = .ok (ir, t)) : fetch s = .ok (ir, t.setPc (t.pc + 1#16)) := by
  simp [fetch, h]

theorem fetch_of_memRead_error {s : State} {f : Fault} (h : memRead s.pc s = .error f) : fetch s = .error f := by
  simp [fetch, h]

/-- A step whose fetch does not poll executes the stored word. -/
theorem step_of_plain_fetch {s : State} (hr : s.run = .running) (hpc : s.pc ≠ s.cfg.kbsrAddr) :
    step s = exec (decode (s.mem.read s.pc)) (s.setPc (s.pc + 1#16)) :=
  step_of_fetch hr (fetch_plain hpc)

theorem Polled.setPc {s t : State} {answer : Option Byte} (h : Polled s t answer) (v : Word) : Polled s (t.setPc v) answer :=
  ⟨h.status, h.data, h.keptData, h.bytes, h.answers, h.rest, h.output⟩

/-- Settles O41: a fetch off `KBSR_ADDR` reads the stored word, one at `KBSR_ADDR` the status word of its poll. -/
theorem stepRunsTheDecodedInstruction : Obligations.StepRunsTheDecodedInstruction := by
  intro s hr
  refine ⟨step_of_plain_fetch hr, fun hpc hm hc => ⟨fun answer ha => ?_, fun hn => ?_⟩⟩
  · obtain ⟨u, hp, hpolled⟩ := poll_answered hm hc ha
    have k := poll_keeps hp
    have hread : memRead s.pc s = .ok (statusWord answer, u) := by rw [hpc, memRead_status hp, hpolled.status]
    exact ⟨u.setPc (u.pc + 1#16), hpolled.setPc _, fun j _ => congrArg (Regs.get · j) k.regs, k.cond, congrArg (· + 1#16) k.pc,
      k.run, k.cfg, step_of_fetch hr (fetch_of_memRead hread)⟩
  · have hread : memRead s.pc s = .error (.consoleNeverAnswers s) := by
      rw [hpc, memRead_status_error (poll_of_error (consoleIn_of_no_nextAnswer hn))]
    exact step_of_fetch_error hr (fetch_of_memRead_error hread)

theorem decodeTableWord_of_le {nbits : Nat} (h : nbits ≤ 16) (w : Nat) :
    decodeTableWord nbits w = some (decode (tableWord nbits w)) := by
  rw [decodeTableWord, if_pos h, decodeBytes, wordOfBytes_high_low]

/-- The host never places an instruction at `KBSR_ADDR` (log 14). -/
theorem withFetchWord_pc_ne (s : State) (nbits w : Nat) : (s.withFetchWord nbits w).pc ≠ s.cfg.kbsrAddr := by
  by_cases h : s.pc = s.cfg.kbsrAddr
  · simp [State.withFetchWord, h]
  · simp [State.withFetchWord, h]

theorem withFetchWord_read_pc {s : State} (hm : Memory.wf s.mem = true) (nbits w : Nat) :
    (s.withFetchWord nbits w).mem.read (s.withFetchWord nbits w).pc = tableWord nbits w :=
  Memory.read_write_same hm _ _

/-- Settles O42: the placed word stands at `pc`, off `KBSR_ADDR`, so the step executes what it decodes to. -/
theorem placedInstructionRunsNext : Obligations.PlacedInstructionRunsNext := by
  intro s nbits w hm hn
  refine ⟨decode (tableWord nbits w), decodeTableWord_of_le hn w, ?_⟩
  rw [step_of_plain_fetch rfl (withFetchWord_pc_ne s nbits w), withFetchWord_read_pc hm]

/-! ## Reset and boot (10_state.md R38, 70_reset_and_hazards.md R242, R245) -/

/-- Settles O45: the default device addresses are distinct, and any reset state has empty memory and is RUNNING. -/
theorem resetSatisfiesInvariant : Obligations.ResetSatisfiesInvariant := by
  have hreset : ∀ (cfg : Config) (console : Console), cfg.wf = true → (State.resetWith cfg console).Inv :=
    fun _ _ hc => ⟨Memory.wf_nil, hc, RunState.noConfusion⟩
  exact ⟨hreset _ _ rfl, hreset⟩

/-- Everything loading `images` in order can do: each word of memory is that of the last image with one for its address, and only memory changes. -/
structure ImagesStored (images : List (List Byte)) (s t : State) : Prop where
  words : ∀ a : Word, t.mem.read a = (images.reverse.findSome? (fun image => imageCell image a)).getD (s.mem.read a)
  wf : Memory.wf t.mem = true
  regs : t.regs = s.regs
  pc : t.pc = s.pc
  cond : t.cond = s.cond
  run : t.run = s.run
  console : t.console = s.console
  cfg : t.cfg = s.cfg

theorem loadImages_cons_next {image : List Byte} {later : List (List Byte)} {s t : State} (h : loadImages (image :: later) s = .next t) :
    ∃ u, loadImage image s = .next u ∧ loadImages later u = .next t := by
  rw [loadImages] at h
  cases hl : loadImage image s with
  | next u => exact ⟨u, rfl, by rwa [hl] at h⟩
  | fault | refused => rw [hl] at h; cases h

theorem loadImages_stored {images : List (List Byte)} {s t : State} (hm : Memory.wf s.mem = true) (h : loadImages images s = .next t) :
    ImagesStored images s t := by
  induction images generalizing s with
  | nil => cases h; exact ⟨fun _ => rfl, hm, rfl, rfl, rfl, rfl, rfl, rfl⟩
  | cons image later ih =>
    obtain ⟨u, hfirst, hlater⟩ := loadImages_cons_next h
    obtain ⟨hi, lo, b, rfl, w⟩ := loadImage_next hm hfirst
    have r := ih w.wf hlater
    refine ⟨fun a => ?_, r.wf, r.regs.trans w.regs, r.pc.trans w.pc, r.cond.trans w.cond, r.run.trans w.run,
      r.console.trans w.console, r.cfg.trans w.cfg⟩
    rw [r.words, w.words, List.reverse_cons, List.findSome?_append, Option.getD_or, List.findSome?_singleton]
    rfl

/-- A boot that succeeds is a load into the reset state, which is RUNNING already. -/
theorem boot_next {images : List (List Byte)} {s t : State} (h : boot images s = .next t) : ImagesStored images (hostReset s) t := by
  rw [boot] at h
  cases hl : loadImages images (hostReset s) with
  | next u =>
    rw [hl] at h
    cases h
    have r := loadImages_stored Memory.wf_nil hl
    exact ⟨r.words, r.wf, r.regs, r.pc, r.cond, rfl, r.console, r.cfg⟩
  | fault | refused => rw [hl] at h; cases h

theorem hostReset_reg (s : State) (j : Reg) : (hostReset s).reg j = 0x0000#16 := by
  cases j <;> rfl

/-- Settles O46: the reset values, and boot as a load into the reset state. -/
theorem resetAndBootLeaveTheResetValues : Obligations.ResetAndBootLeaveTheResetValues := by
  intro s
  refine ⟨⟨rfl, rfl, rfl, rfl, rfl, hostReset_reg s, Memory.read_nil⟩, fun images t h => ?_⟩
  have r := boot_next h
  refine ⟨r.pc, r.cond, r.run, r.console, r.cfg, fun j => ?_, r.wf, fun a => ?_⟩
  · exact (congrArg (Regs.get · j) r.regs).trans (hostReset_reg s j)
  · exact (r.words a).trans (congrArg _ (Memory.read_nil a))

end Sys2Proof.Machine
end

section
/-! Proofs for 20_memory.md: the store and the two device words, the reads of `KBSR_ADDR` that poll, and what a whole step can do to memory, the console and
the parameters, whether it completes or not. -/

namespace Sys2Proof.Machine

/-! ## What GETC's and IN's read and the fetch come to -/

section
variable {s t : State} {f : Fault} {next : Byte → State → Outcome}

theorem readChar_of_char {c : Byte} (h : consoleIn s = .ok (some c, t)) : readChar s next = next c t := by
  simp [readChar, h]

theorem readChar_of_none (h : consoleIn s = .ok (none, t)) :
    readChar s next = .fault (.consoleAnsweredNone t) := by
  simp [readChar, h]

theorem readChar_of_error (h : consoleIn s = .error f) : readChar s next = .fault f := by
  simp [readChar, h]

theorem consoleIn_error (h : consoleIn s = .error f) : f = .consoleNeverAnswers s := by
  obtain ⟨_, _, -, hc⟩ | ⟨_, -, -, hc⟩ | ⟨-, -, hc⟩ := consoleIn_cases s <;> rw [hc] at h <;> cases h
  rfl

theorem fetch_error (h : fetch s = .error f) : f = .consoleNeverAnswers s := by
  cases hr : memRead s.pc s with
  | error g => rw [fetch_of_memRead_error hr] at h; cases h; exact (memRead_error hr).2.2
  | ok p => rw [fetch_of_memRead hr] at h; cases h

end

/-! ## The store -/

/-- Settles O32: the word by a read after a write, the other bytes because the write lists no other key. -/
theorem memWriteStoresUnconditionally : Obligations.MemWriteStoresUnconditionally := by
  intro s a v hm
  exact ⟨Memory.read_write_same hm a v, fun key hk => Memory.readByte_write s.mem a v key (hk a (by simp)), fun _ _ => rfl, rfl, rfl,
    rfl, rfl, rfl⟩

/-- Settles O54: ST with offset 0 stores at the incremented `pc`, where the next step reads the word back. -/
theorem storeIsSeenByTheNextFetch : Obligations.StoreIsSeenByTheNextFetch := by
  intro s sr off hm hrun hpc hpc' hst hoff
  have haddr : s.pc + 1#16 + sext off = s.pc + 1#16 := by rw [hoff, BitVec.add_zero]
  have hexec : exec (.st sr off) (s.setPc (s.pc + 1#16)) = .next (memWrite (s.pc + 1#16) (s.reg sr) (s.setPc (s.pc + 1#16))) :=
    congrArg (fun a => Host.Outcome.next (memWrite a (s.reg sr) (s.setPc (s.pc + 1#16)))) haddr
  refine ⟨_, by rw [step_of_plain_fetch hrun hpc, hst, hexec], ?_⟩
  generalize hu : memWrite (s.pc + 1#16) (s.reg sr) (s.setPc (s.pc + 1#16)) = u
  have hword : u.mem.read u.pc = s.reg sr := by rw [← hu]; exact Memory.read_write_same hm _ _
  have hnext : u.pc + 1#16 = s.pc + 2#16 := by rw [← hu]; exact BitVec.add_assoc ..
  rw [step_of_plain_fetch (by rw [← hu]; exact hrun) (by rw [← hu]; exact hpc'), hword, hnext]

/-! ## Reads of the device words -/

section
variable {s t u : State} {answer : Option Byte}

/-- A word none of whose bytes may have changed. -/
theorem SameBytesOutside.read {as : List Word} (h : SameBytesOutside s t as) {b : Word} (hb : b ∉ as) : t.mem.read b = s.mem.read b := by
  have hne : ∀ a ∈ as, a.toNat ≠ b.toNat := fun a ha heq => hb (BitVec.eq_of_toNat_eq heq ▸ ha)
  rw [Memory.read, Memory.read, h _ fun a ha => ?_, h _ fun a ha => ?_]
  all_goals have := hne a ha; omega

/-- A poll's effect speaks of memory, the console and the device addresses only. -/
theorem Polled.congr {s' t' : State} (h : Polled s t answer) (hs : s'.mem = s.mem ∧ s'.console = s.console ∧ s'.cfg = s.cfg)
    (ht : t'.mem = t.mem ∧ t'.console = t.console) : Polled s' t' answer := by
  obtain ⟨hsm, hsc, hsg⟩ := hs
  obtain ⟨htm, htc⟩ := ht
  obtain ⟨h1, h2, h3, h4, h5, h6, h7⟩ := h
  constructor <;> simpa only [SameBytesOutside, hsm, hsc, hsg, htm, htc]

/-- An answered read of `KBSR_ADDR` returns the status word of its poll (20_memory.md R52, R55). -/
theorem memRead_status_answered (hm : Memory.wf s.mem = true) (hc : s.cfg.wf = true) (h : s.nextAnswer = some answer) :
    ∃ t, memRead s.cfg.kbsrAddr s = .ok (statusWord answer, t) ∧ Polled s t answer := by
  obtain ⟨t, hp, hpolled⟩ := poll_answered hm hc h
  exact ⟨t, by rw [memRead_status hp, hpolled.status], hpolled⟩

theorem memRead_status_unanswered (h : s.nextAnswer = none) : memRead s.cfg.kbsrAddr s = .error (.consoleNeverAnswers s) :=
  memRead_status_error (poll_of_error (consoleIn_of_no_nextAnswer h))

theorem memRead_data (hc : s.cfg.wf = true) : memRead s.cfg.kbdrAddr s = .ok (s.mem.read s.cfg.kbdrAddr, s) :=
  memRead_plain (Config.kbsr_ne_kbdr hc).symm

theorem KeepsCore.sameRegs (k : KeepsCore s t) (rs : List Reg) : SameRegsExcept s t rs := fun j _ => congrArg (Regs.get · j) k.regs

end

/-- Settles O31: the address is not `KBSR_ADDR`. -/
theorem readOfDataRegisterHasNoEffect : Obligations.ReadOfDataRegisterHasNoEffect := fun _ hc => memRead_data hc

/-- Settles O30, by whether the port answers. -/
theorem readOfStatusPollsTheConsole : Obligations.ReadOfStatusPollsTheConsole := by
  intro s hm hc
  refine ⟨fun answer ha => ?_, memRead_status_unanswered⟩
  obtain ⟨t, hr, hpolled⟩ := memRead_status_answered hm hc ha
  have k := memRead_keeps hr
  exact ⟨t, hr, hpolled, k.sameRegs [], k.cond, k.pc, k.run, k.cfg⟩

/-- Settles O33: the read of `KBSR_ADDR` polls over the stored word, that of `KBDR_ADDR` reads it. -/
theorem statusStoreIsLostDataStoreIsKept : Obligations.StatusStoreIsLostDataStoreIsKept := by
  intro s v hm hc
  refine ⟨fun answer ha => ?_, memWrite s.cfg.kbdrAddr v s, ?_⟩
  · obtain ⟨t, hr, -⟩ := memRead_status_answered (s := memWrite s.cfg.kbsrAddr v s) (memWrite_wf hm _ _) hc ha
    exact ⟨t, hr⟩
  · have hr := memRead_data (s := memWrite s.cfg.kbdrAddr v s) hc
    rwa [memWrite_mem, memWrite_cfg, Memory.read_write_same hm] at hr

/-! ## Loads, by what their reads answer (42_load_store.md R162 to R164, R167) -/

section
variable {s t u v : State} {dr base : Reg} {off9 : BitVec 9} {off6 : BitVec 6} {a p w : Word} {f : Fault} {answer : Option Byte}

theorem exec_ld_of_read (hr : memRead (s.pc + sext off9) s = .ok (w, t)) : exec (.ld dr off9) s = .next (t.writeDest dr w) :=
  withRead_of_ok hr _

theorem exec_ldr_of_read (hr : memRead (s.reg base + sext off6) s = .ok (w, t)) : exec (.ldr dr base off6) s = .next (t.writeDest dr w) :=
  withRead_of_ok hr _

theorem exec_ldi_of_reads (hp : memRead (s.pc + sext off9) s = .ok (p, t)) (hw : memRead p t = .ok (w, u)) :
    exec (.ldi dr off9) s = .next (u.writeDest dr w) :=
  (withRead_of_ok hp _).trans (withRead_of_ok hw _)

theorem exec_ldi_of_data_error (hp : memRead (s.pc + sext off9) s = .ok (p, t)) (hw : memRead p t = .error f) :
    exec (.ldi dr off9) s = .fault f :=
  (withRead_of_ok hp _).trans (withRead_of_error hw _)

/-- What a load of a word that polled leaves: the poll's effect from `u`, and of `s` only the destination register and `cond` changed. -/
structure LoadedAfterPoll (s u t : State) (answer : Option Byte) (dr : Reg) (w : Word) : Prop where
  polled : Polled u t answer
  value : t.reg dr = w
  flag : t.cond = setcc w
  regs : SameRegsExcept s t [dr]
  pc : t.pc = s.pc
  run : t.run = s.run
  cfg : t.cfg = s.cfg

theorem loadedAfterPoll_writeDest (hp : Polled u v answer) (k : KeepsCore s v) (dr : Reg) (w : Word) :
    LoadedAfterPoll s u (v.writeDest dr w) answer dr w where
  polled := hp.congr ⟨rfl, rfl, rfl⟩ ⟨rfl, rfl⟩
  value := by simp
  flag := rfl
  regs := fun j hj => by
    rw [State.writeDest_reg, if_neg (by simpa using hj)]
    exact congrArg (Regs.get · j) k.regs
  pc := k.pc
  run := k.run
  cfg := k.cfg

/-- The form the statements give it in. -/
theorem LoadedAfterPoll.exists_next {o : Outcome} (h : LoadedAfterPoll s u t answer dr w) (ho : o = .next t) :
    ∃ t, o = .next t ∧ Polled u t answer ∧ t.reg dr = w ∧ t.cond = setcc w ∧
      SameRegsExcept s t [dr] ∧ t.pc = s.pc ∧ t.run = s.run ∧ t.cfg = s.cfg :=
  ⟨t, ho, h.polled, h.value, h.flag, h.regs, h.pc, h.run, h.cfg⟩

end

/-- Settles O10: each load by its reads, the second read of LDI from the state the first left. -/
theorem loadOfStatusPollsFirst : Obligations.LoadOfStatusPollsFirst := by
  intro s dr base off9 off6 answer hm hc ha
  obtain ⟨u, hr, hpolled⟩ := memRead_status_answered hm hc ha
  have k := memRead_keeps hr
  have loaded (w : Word) := loadedAfterPoll_writeDest hpolled k dr w
  refine ⟨fun hpc => ?_, fun hbase => ?_, fun hne hptr => ?_, fun hpc hstatus => ?_, fun hpc hstatus => ?_⟩
  · exact (loaded _).exists_next (exec_ld_of_read (hpc ▸ hr))
  · exact (loaded _).exists_next (exec_ldr_of_read (hbase ▸ hr))
  · exact (loaded _).exists_next (exec_ldi_of_reads (memRead_plain hne) (hptr ▸ hr))
  · have hdata : memRead (statusWord answer) u = .ok (u.mem.read (statusWord answer), u) := memRead_plain (by rwa [k.cfg])
    have l := loaded (u.mem.read (statusWord answer))
    exact ⟨_, exec_ldi_of_reads (hpc ▸ hr) hdata, l.polled, l.value, l.flag, l.regs, l.pc, l.run, l.cfg⟩
  · have hptr : memRead (s.pc + sext off9) s = .ok (u.cfg.kbsrAddr, u) := by rw [hpc, hr, hstatus, k.cfg]
    refine ⟨u, hpolled, k.sameRegs [], k.cond, k.pc, k.run, k.cfg, fun second hs => ?_, fun hn => ?_⟩
    · obtain ⟨v, hr2, hpolled2⟩ := memRead_status_answered (memRead_wf hm hr) (k.cfg ▸ hc) hs
      exact (loadedAfterPoll_writeDest hpolled2 (k.trans (memRead_keeps hr2)) dr _).exists_next (exec_ldi_of_reads hptr hr2)
    · exact exec_ldi_of_data_error hptr (memRead_status_unanswered hn)

/-! ## Reads that are not answered -/

/-- Settles O34: each instruction stops at its first read of the console, in the state it has reached by then. -/
theorem unansweredConsoleReadDoesNotComplete : Obligations.UnansweredConsoleReadDoesNotComplete := by
  intro s
  refine ⟨fun hn => ⟨?_, ?_, fun r base off9 off6 => ⟨fun hpc => ?_, fun hne hptr => ?_, fun hbase => ?_⟩⟩, fun hn => ⟨?_, ?_⟩⟩
  · exact ⟨linkTrap s, readChar_of_error (consoleIn_of_no_nextAnswer hn), rfl, rfl⟩
  · exact ⟨(linkTrap s).consoleOut s.cfg.inPrompt, readChar_of_error (consoleIn_of_no_nextAnswer hn), rfl, rfl⟩
  · have hr : memRead (s.pc + sext off9) s = .error (.consoleNeverAnswers s) := hpc ▸ memRead_status_unanswered hn
    exact ⟨withRead_of_error hr _, withRead_of_error hr _, withRead_of_error hr _⟩
  · exact exec_ldi_of_data_error (memRead_plain hne) (hptr ▸ memRead_status_unanswered hn)
  · have hr : memRead (s.reg base + sext off6) s = .error (.consoleNeverAnswers s) := hbase ▸ memRead_status_unanswered hn
    exact withRead_of_error hr _
  · exact ⟨_, readChar_of_none (s := linkTrap s) (consoleIn_of_nextAnswer hn), rfl, rfl⟩
  · exact ⟨_, readChar_of_none (s := (linkTrap s).consoleOut s.cfg.inPrompt) (consoleIn_of_nextAnswer hn), rfl, rfl⟩

/-! ## A string that starts at `KBSR_ADDR` -/

section
variable {chars : Word → List Byte} {s t u : State} {w : Word}

theorem printPass_of_zero {later : Word → State → Outcome} {n : Nat} {a : Word} (h : memRead a s = .ok (0#16, t)) :
    printPass chars later (n + 1) a s = .next t := by
  simp [printPass, h]

theorem printPass_of_ne_zero {later : Word → State → Outcome} {n : Nat} {a : Word} (h : memRead a s = .ok (w, t)) (hw : w ≠ 0#16) :
    printPass chars later (n + 1) a s = printPass chars later n (a + 1#16) (t.consoleOut (chars w)) := by
  simp [printPass, h, hw]

/-- The empty string: the first word is zero. -/
theorem printString_of_zero (h : memRead (s.reg .r0) s = .ok (0#16, t)) : printString chars s = .next t :=
  printPass_of_zero h

/-- The string of one word. -/
theorem printString_of_one_word (h : memRead (s.reg .r0) s = .ok (w, u)) (hw : w ≠ 0#16)
    (hz : memRead (s.reg .r0 + 1#16) (u.consoleOut (chars w)) = .ok (0#16, t)) : printString chars s = .next t :=
  (printPass_of_ne_zero h hw).trans (printPass_of_zero hz)

/-- A string at `KBSR_ADDR` whose poll answers `none` is empty; the link of R7 before it is not seen by a poll. -/
theorem printString_status_none (hm : Memory.wf s.mem = true) (hc : s.cfg.wf = true) (h0 : s.reg .r0 = s.cfg.kbsrAddr)
    (ha : s.nextAnswer = some none) : ∃ t, printString chars (linkTrap s) = .next t ∧ Polled s t none := by
  obtain ⟨t, hr, hpolled⟩ := memRead_status_answered (s := linkTrap s) hm hc ha
  exact ⟨t, printString_of_zero (h0 ▸ hr), hpolled.congr ⟨rfl, rfl, rfl⟩ ⟨rfl, rfl⟩⟩

/-- A string at `KBSR_ADDR` whose poll answers a character is the status word alone, if the next word is zero and no device word. -/
theorem printString_status_char {c : Byte} (hm : Memory.wf s.mem = true) (hc : s.cfg.wf = true) (h0 : s.reg .r0 = s.cfg.kbsrAddr)
    (ha : s.nextAnswer = some (some c)) (hne : s.cfg.kbsrAddr + 1#16 ≠ s.cfg.kbdrAddr) (hz : s.mem.read (s.cfg.kbsrAddr + 1#16) = 0#16) :
    ∃ t, printString chars (linkTrap s) = .next t ∧ t.console.output = s.console.output ++ chars 0x8000#16 ∧
      t.mem.read s.cfg.kbdrAddr = zext c ∧ t.console.answers = s.console.answers.tail := by
  obtain ⟨u, hr, hpolled⟩ := memRead_status_answered (s := linkTrap s) hm hc ha
  have hself : s.cfg.kbsrAddr + 1#16 ≠ s.cfg.kbsrAddr := by simp
  have hword : u.mem.read (s.cfg.kbsrAddr + 1#16) = 0#16 := (hpolled.bytes.read (by simp [hself, hne])).trans hz
  have hfirst : memRead (s.reg .r0) (linkTrap s) = .ok (0x8000#16, u) := h0 ▸ hr
  have hsecond : memRead (s.reg .r0 + 1#16) (u.consoleOut (chars 0x8000#16)) = .ok (0#16, u.consoleOut (chars 0x8000#16)) := by
    rw [h0, memRead_plain (by rwa [State.consoleOut_cfg, (memRead_keeps hr).cfg]), State.consoleOut_mem, hword]
  exact ⟨_, printString_of_one_word hfirst (by decide) hsecond, congrArg (· ++ chars 0x8000#16) hpolled.output, hpolled.data c rfl,
    hpolled.answers⟩

end

/-- Settles O27: the first word is the status word, 0 on `none`; after a character PUTS and PUTSP differ only in what they send for 0x8000. -/
theorem stringReadOfStatusPolls : Obligations.StringReadOfStatusPolls := by
  intro s hm hc h0
  exact ⟨fun ha => ⟨printString_status_none hm hc h0 ha, printString_status_none hm hc h0 ha⟩,
    fun c ha hne hz => ⟨printString_status_char (chars := putsChars) hm hc h0 ha hne hz,
      printString_status_char (chars := putspChars) hm hc h0 ha hne hz⟩⟩

/-! ## What an instruction can do on its way

One relation holds every effect an instruction can have before it ends, each under the kind of instruction that has it. It is proved of `exec` once; the rules over
all instructions are inductions over it. -/

/-- Running `i` from `s` leads to the last state, `run` not yet written: registers, `pc` and `cond` are free, everything else changes by one of the four operations
(20_memory.md R52, R53, R70, R71), each only in the instructions that use it. -/
inductive Effects (i : Instr) (s : State) : State → Prop where
  | start : Effects i s s
  | core {t u : State} (h : Effects i s t) (hmem : u.mem = t.mem) (hcon : u.console = t.console) (hcfg : u.cfg = t.cfg)
      (hrun : u.run = t.run) : Effects i s u
  | read {t u : State} {a w : Word} (h : Effects i s t) (hi : i.readsMemory = true) (hr : memRead a t = .ok (w, u)) : Effects i s u
  | input {t u : State} {a : Option Byte} (h : Effects i s t) (hi : i.readsConsole = true) (hc : consoleIn t = .ok (a, u)) : Effects i s u
  | output {t : State} (h : Effects i s t) (hi : i.prints = true) (cs : List Byte) : Effects i s (t.consoleOut cs)
  | store {t : State} (h : Effects i s t) (hi : i.isStore = true) (a v : Word) : Effects i s (memWrite a v t)

/-- The three faults of a step that does not complete, with the state it had reached (logs 10 to 12). -/
def Fault.StuckAt (f : Fault) (u : State) : Prop := f = .consoleNeverAnswers u ∨ f = .consoleAnsweredNone u ∨ f = .stringNeverEnds u

/-- What `i` can answer from `s`: a state its effects lead to, `run` written last; a stuck state its effects lead to; never a refusal. -/
def Answers (i : Instr) (s : State) : Outcome → Prop
  | .next t => ∃ u r, Effects i s u ∧ t = u.setRun r
  | .fault f => ∃ u, f.StuckAt u ∧ Effects i s u
  | .refused _ => False

section
variable {i : Instr} {s t : State}

theorem Effects.answers_next (h : Effects i s t) : Answers i s (.next t) := ⟨t, t.run, h, rfl⟩

theorem Effects.answers_core {u : State} (h : Effects i s t) (hmem : u.mem = t.mem) (hcon : u.console = t.console) (hcfg : u.cfg = t.cfg)
    (hrun : u.run = t.run) : Answers i s (.next u) :=
  (h.core hmem hcon hcfg hrun).answers_next

theorem Effects.answers_setRun (h : Effects i s t) (r : RunState) : Answers i s (.next (t.setRun r)) := ⟨t, r, h, rfl⟩

theorem Effects.answers_withRead {a : Word} {next : Word → State → Outcome} (h : Effects i s t) (hi : i.readsMemory = true)
    (hnext : ∀ w u, Effects i s u → Answers i s (next w u)) : Answers i s (withRead a t next) := by
  cases hr : memRead a t with
  | error f => rw [withRead_of_error hr]; exact ⟨t, .inl (memRead_error hr).2.2, h⟩
  | ok p => rw [withRead_of_ok hr]; exact hnext _ _ (h.read hi hr)

theorem Effects.answers_readChar {next : Byte → State → Outcome} (h : Effects i s t) (hi : i.readsConsole = true)
    (hnext : ∀ c u, Effects i s u → Answers i s (next c u)) : Answers i s (readChar t next) := by
  cases hc : consoleIn t with
  | error f => rw [readChar_of_error hc]; exact ⟨t, .inl (consoleIn_error hc), h⟩
  | ok p =>
    obtain ⟨a, u⟩ := p
    cases a with
    | none => rw [readChar_of_none hc]; exact ⟨u, .inr (.inl rfl), h.input hi hc⟩
    | some c => rw [readChar_of_char hc]; exact hnext c u (h.input hi hc)

/-- The string loop reads and prints, and nothing else. -/
theorem Effects.answers_printString {chars : Word → List Byte} (h : Effects i s t) (hm : i.readsMemory = true) (hp : i.prints = true) :
    Answers i s (printString chars t) := by
  have hread : ∀ s t u a w, Effects i s t → memRead a t = .ok (w, u) → Effects i s u := fun _ _ _ _ _ h hr => h.read hm hr
  have hout : ∀ s t cs, Effects i s t → Effects i s (t.consoleOut cs) := fun _ _ cs h => h.output hp cs
  cases ho : printString chars t with
  | next u => exact (printPasses_next (Effects i) hread hout _ s t _ u h ho).answers_next
  | fault f =>
    obtain ⟨u, hf, hu⟩ := printPasses_fault (Effects i) hread hout _ s t _ f h ho
    exact ⟨u, hf.imp_right .inr, hu⟩
  | refused r => exact printPasses_refused _ _ _ ho

theorem Instr.readsMemory_of_routine (h : i.routine = some .puts ∨ i.routine = some .putsp) : i.readsMemory = true := by
  cases i with
  | ld | ldi | ldr | sti => rfl
  | _ => obtain h | h := h <;> simp [Instr.readsMemory, h]

/-- The dispatch of a TRAP on its routine (43_trap.md R180). -/
theorem Effects.answers_trapDispatch {v : BitVec 8} (h : Effects i s t) (hv : routineOfCode v = i.routine) :
    Answers i s (trapDispatch v t) := by
  unfold trapDispatch
  rw [hv]
  cases hr : i.routine with
  | none => exact h.answers_setRun _
  | some routine =>
    have hprints : routine ≠ .getc → i.prints = true := by cases routine <;> simp [Instr.prints, hr]
    cases routine with
    | getc =>
      exact h.answers_readChar (by simp [Instr.readsConsole, hr]) fun c u hu => hu.answers_core rfl rfl rfl rfl
    | out => exact (h.output (hprints nofun) _).answers_next
    | puts => exact h.answers_printString (Instr.readsMemory_of_routine (.inl hr)) (hprints nofun)
    | inChar =>
      exact (h.output (hprints nofun) _).answers_readChar (by simp [Instr.readsConsole, hr]) fun c u hu =>
        (hu.output (hprints nofun) [c]).answers_core rfl rfl rfl rfl
    | putsp => exact h.answers_printString (Instr.readsMemory_of_routine (.inr hr)) (hprints nofun)
    | halt => exact (h.output (hprints nofun) _).answers_setRun _

theorem exec_answers_of_isTrap (hi : i.isTrap = true) : Answers i s (exec i s) := by
  obtain ⟨v, hv, hexec⟩ := exec_eq_trapDispatch hi
  rw [hexec]
  exact Effects.answers_trapDispatch (.core .start rfl rfl rfl rfl) hv

/-- Everything an instruction can answer, by its kind. -/
theorem exec_answers (i : Instr) (s : State) : Answers i s (exec i s) := by
  cases i with
  | addReg | addImm | andReg | andImm | not | lea | br | jmp | ret | jsr | jsrr =>
    exact Effects.start.answers_core rfl rfl rfl rfl
  | ld | ldr => exact Effects.start.answers_withRead rfl fun w u h => h.answers_core rfl rfl rfl rfl
  | ldi =>
    exact Effects.start.answers_withRead rfl fun p u h => h.answers_withRead rfl fun w v h => h.answers_core rfl rfl rfl rfl
  | st | str => exact (Effects.start.store rfl _ _).answers_next
  | sti => exact Effects.start.answers_withRead rfl fun p u h => (h.store rfl _ _).answers_next
  | trap | getc | out | puts | inChar | putsp | halt | trapUndefined => exact exec_answers_of_isTrap rfl
  | rti | res => exact Effects.start.answers_setRun _

theorem exec_next_effects (h : exec i s = .next t) : ∃ u r, Effects i s u ∧ t = u.setRun r := by
  have ha := exec_answers i s
  rwa [h] at ha

theorem exec_fault_effects {f : Fault} (h : exec i s = .fault f) : ∃ u, f.StuckAt u ∧ Effects i s u := by
  have ha := exec_answers i s
  rwa [h] at ha

theorem exec_ne_refused (i : Instr) (s : State) (r : Refusal) : exec i s ≠ .refused r := by
  intro h
  have ha := exec_answers i s
  rwa [h] at ha

end

/-! ## What every step keeps -/

/-- What every effect of a step keeps or only advances: the parameters and how the port goes on stay, the output grows at its end, answers are taken from the front,
and memory stays canonical (20_memory.md R70, R71). -/
structure Advances (s t : State) : Prop where
  cfg : t.cfg = s.cfg
  rest : t.console.rest = s.console.rest
  output : s.console.output <+: t.console.output
  answers : t.console.answers <:+ s.console.answers
  wf : Memory.wf s.mem = true → Memory.wf t.mem = true

section
variable {i : Instr} {s t u : State}

theorem Advances.trans (h : Advances s t) (g : Advances t u) : Advances s u :=
  ⟨g.cfg.trans h.cfg, g.rest.trans h.rest, h.output.trans g.output, g.answers.trans h.answers, g.wf ∘ h.wf⟩

theorem consoleIn_advances {a : Option Byte} (h : consoleIn s = .ok (a, t)) : Advances s t := by
  rw [consoleIn_ok h]
  exact ⟨rfl, rfl, List.prefix_rfl, List.tail_suffix _, id⟩

/-- Registers, `pc`, `cond` and `run` are free. -/
theorem Advances.of_core (hmem : t.mem = s.mem) (hcon : t.console = s.console) (hcfg : t.cfg = s.cfg) : Advances s t :=
  ⟨hcfg, by rw [hcon], by rw [hcon], by rw [hcon], by rw [hmem]; exact id⟩

theorem Advances.refl (s : State) : Advances s s := .of_core rfl rfl rfl

/-- A poll takes at most one answer and writes device words only; any other read changes nothing. -/
theorem memRead_advances {a w : Word} (h : memRead a s = .ok (w, t)) : Advances s t := by
  have k := memRead_keeps h
  refine ⟨k.cfg, k.rest, by rw [k.output], ?_, fun hm => memRead_wf hm h⟩
  obtain ⟨-, ⟨-, rfl⟩ | ⟨-, hp⟩⟩ := memRead_ok h
  · exact List.suffix_rfl
  · obtain ⟨a, -, rfl⟩ := poll_ok hp
    exact List.tail_suffix _

theorem Effects.advances (h : Effects i s t) : Advances s t := by
  induction h with
  | start => exact .refl s
  | core _ hmem hcon hcfg _ ih => exact ih.trans (.of_core hmem hcon hcfg)
  | read _ _ hr ih => exact ih.trans (memRead_advances hr)
  | input _ _ hc ih => exact ih.trans (consoleIn_advances hc)
  | output _ _ cs ih => exact ih.trans ⟨rfl, rfl, List.prefix_append _ _, List.suffix_rfl, id⟩
  | store _ _ a v ih => exact ih.trans ⟨rfl, rfl, List.prefix_rfl, List.suffix_rfl, fun hm => memWrite_wf hm a v⟩

theorem Effects.run (h : Effects i s t) : t.run = s.run := by
  induction h with
  | start => rfl
  | core _ _ _ _ hrun ih => exact hrun.trans ih
  | read _ _ hr ih => exact (memRead_keeps hr).run.trans ih
  | input _ _ hc ih => rw [consoleIn_ok hc]; exact ih
  | output _ _ _ ih => exact ih
  | store _ _ _ _ ih => exact ih

theorem exec_advances (h : exec i s = .next t) : Advances s t := by
  obtain ⟨u, r, hu, rfl⟩ := exec_next_effects h
  exact hu.advances.trans (.of_core rfl rfl rfl)

theorem fetch_advances {ir : Word} (h : fetch s = .ok (ir, t)) : Advances s t := by
  obtain ⟨u, hr, rfl⟩ := fetch_ok h
  exact (memRead_advances hr).trans (.of_core rfl rfl rfl)

theorem step_advances (h : step s = .next t) : Advances s t := by
  obtain ⟨-, rfl⟩ | ⟨-, ir, u, hf, hx⟩ := step_next h
  · exact .refl t
  · exact (fetch_advances hf).trans (exec_advances hx)

/-- No instruction raises the kind UndefinedOpcode (60_exceptions.md R226). -/
theorem exec_keeps_run_ne_undefinedOpcode (hs : s.run ≠ .dead .undefinedOpcode) (h : exec i s = .next t) :
    t.run ≠ .dead .undefinedOpcode := by
  obtain hrun | ⟨-, hrun⟩ | ⟨-, hrun⟩ := exec_run h <;> rw [hrun]
  · exact hs
  · cases i.routine with
    | none => nofun
    | some r => cases r with
      | halt => nofun
      | getc | out | puts | inChar | putsp => exact hs
  · nofun

theorem step_keeps_run_ne_undefinedOpcode (hs : s.run ≠ .dead .undefinedOpcode) (h : step s = .next t) :
    t.run ≠ .dead .undefinedOpcode := by
  obtain ⟨-, rfl⟩ | ⟨-, ir, u, hf, hx⟩ := step_next h
  · exact hs
  · exact exec_keeps_run_ne_undefinedOpcode (by rwa [fetch_run hf]) hx

end

/-- Settles O44: memory and parameters by what every step advances, `run` by who writes it. -/
theorem stepKeepsInvariant : Obligations.StepKeepsInvariant := by
  intro s t ⟨hm, hc, hrun⟩ h
  have a := step_advances h
  exact ⟨a.wf hm, a.cfg ▸ hc, step_keeps_run_ne_undefinedOpcode hrun h⟩

/-- Settles O47: a step advances, whether its core runs or not. -/
theorem parametersFixedOutputGrowsAnswersAreTaken : Obligations.ParametersFixedOutputGrowsAnswersAreTaken := by
  intro s t h
  obtain ⟨hcfg, hrest, ⟨sent, hsent⟩, ⟨taken, htaken⟩, -⟩ := step_advances h
  exact ⟨hcfg, hrest, ⟨sent, hsent.symm⟩, ⟨taken, htaken.symm⟩⟩

/-! ## Who prints -/

theorem Effects.output_of_not_prints {i : Instr} {s t : State} (hi : i.prints = false) (h : Effects i s t) :
    t.console.output = s.console.output := by
  induction h with
  | start => rfl
  | core _ _ hcon _ _ ih => rw [hcon, ih]
  | read _ _ hr ih => exact (memRead_keeps hr).output.trans ih
  | input _ _ hc ih => rw [consoleIn_ok hc]; exact ih
  | output _ hp => rw [hi] at hp; cases hp
  | store _ _ _ _ ih => exact ih

theorem exec_keeps_output {i : Instr} {s t : State} (hi : i.prints = false) (h : exec i s = .next t) :
    t.console.output = s.console.output := by
  obtain ⟨u, r, hu, rfl⟩ := exec_next_effects h
  exact Effects.output_of_not_prints (t := u) hi hu

theorem fetch_keeps_output {s t : State} {ir : Word} (h : fetch s = .ok (ir, t)) : t.console.output = s.console.output := by
  obtain ⟨u, hr, rfl⟩ := fetch_ok h
  exact (memRead_keeps hr).output

/-- Settles O48: an instruction that prints none keeps the output, and so does the fetch. -/
theorem onlyFiveRoutinesPrint : Obligations.OnlyFiveRoutinesPrint := by
  refine ⟨fun i s t hi h => exec_keeps_output hi h, fun s t h hne => ?_⟩
  obtain ⟨-, rfl⟩ | ⟨-, ir, u, hf, hx⟩ := step_next h
  · exact absurd rfl hne
  · refine ⟨ir, u, hf, ?_⟩
    by_contra hp
    exact hne ((exec_keeps_output (Bool.eq_false_iff.2 hp) hx).trans (fetch_keeps_output hf))

/-! ## Who changes memory and takes answers -/

section
variable {i : Instr} {s t u : State}

theorem SameBytesOutside.trans {as : List Word} (h : SameBytesOutside s t as) (g : SameBytesOutside t u as) : SameBytesOutside s u as :=
  fun key hk => (g key hk).trans (h key hk)

theorem memRead_bytes {a w : Word} (h : memRead a s = .ok (w, t)) : SameBytesOutside s t [s.cfg.kbsrAddr, s.cfg.kbdrAddr] := by
  intro key hk
  have hkbsr := hk s.cfg.kbsrAddr (by simp)
  have hkbdr := hk s.cfg.kbdrAddr (by simp)
  obtain ⟨-, ⟨-, rfl⟩ | ⟨-, hp⟩⟩ := memRead_ok h
  · rfl
  · obtain ⟨answer, -, rfl⟩ := poll_ok hp
    cases answer with
    | none => exact Memory.readByte_write _ _ _ key hkbsr
    | some c => exact (Memory.readByte_write _ _ _ key hkbdr).trans (Memory.readByte_write _ _ _ key hkbsr)

theorem Effects.bytes_of_not_store (hi : i.isStore = false) (h : Effects i s t) :
    SameBytesOutside s t [s.cfg.kbsrAddr, s.cfg.kbdrAddr] := by
  induction h with
  | start => exact fun _ _ => rfl
  | core _ hmem _ _ _ ih => intro key hk; rw [hmem]; exact ih key hk
  | read ht _ hr ih =>
    have hread := memRead_bytes hr
    rw [ht.advances.cfg] at hread
    exact ih.trans hread
  | input _ _ hc ih => rw [consoleIn_ok hc]; exact ih
  | output _ _ _ ih => exact ih
  | store _ hs => rw [hi] at hs; cases hs

theorem Effects.mem_of_no_access (hi : i.isStore = false) (hr : i.readsMemory = false) (h : Effects i s t) : t.mem = s.mem := by
  induction h with
  | start => rfl
  | core _ hmem _ _ _ ih => exact hmem.trans ih
  | read _ hm => rw [hr] at hm; cases hm
  | input _ _ hc ih => rw [consoleIn_ok hc]; exact ih
  | output _ _ _ ih => exact ih
  | store _ hs => rw [hi] at hs; cases hs

theorem Effects.answers_of_no_read (hr : i.readsMemory = false) (hc : i.readsConsole = false) (h : Effects i s t) :
    t.console.answers = s.console.answers := by
  induction h with
  | start => rfl
  | core _ _ hcon _ _ ih => rw [hcon, ih]
  | read _ hm => rw [hr] at hm; cases hm
  | input _ hm => rw [hc] at hm; cases hm
  | output _ _ _ ih => exact ih
  | store _ _ _ _ ih => exact ih

end

/-- Settles O53, each part by the effects an instruction of its kind does not have. -/
theorem memoryAndAnswersChangeOnlyByStoresAndPolls : Obligations.MemoryAndAnswersChangeOnlyByStoresAndPolls := by
  intro i s t h
  obtain ⟨u, r, hu, rfl⟩ := exec_next_effects h
  exact ⟨fun hi => Effects.bytes_of_not_store (t := u) hi hu, fun hi hr => Effects.mem_of_no_access (t := u) hi hr hu,
    fun hr hc => Effects.answers_of_no_read (t := u) hr hc hu⟩

/-! ## Steps that do not complete -/

theorem step_ne_refused (s : State) (r : Refusal) : step s ≠ .refused r := by
  cases hrun : s.run with
  | running =>
    cases hf : fetch s with
    | error f => rw [step_of_fetch_error hrun hf]; nofun
    | ok p => rw [step_of_fetch hrun hf]; exact exec_ne_refused _ _ r
  | halted => rw [step_of_halted hrun]; nofun
  | dead k => rw [step_of_dead hrun]; nofun

/-- Every way a step can fault: the fetch's poll is never answered, or the fetched instruction faults. Either way the core was RUNNING. -/
theorem step_fault {s : State} {f : Fault} (h : step s = .fault f) :
    s.run = .running ∧ (f = .consoleNeverAnswers s ∨ ∃ ir t, fetch s = .ok (ir, t) ∧ exec (decode ir) t = .fault f) := by
  cases hrun : s.run with
  | running =>
    refine ⟨rfl, ?_⟩
    cases hf : fetch s with
    | error g =>
      rw [step_of_fetch_error hrun hf] at h
      cases h
      exact .inl (fetch_error hf)
    | ok p => rw [step_of_fetch hrun hf] at h; exact .inr ⟨_, _, rfl, h⟩
  | halted => rw [step_of_halted hrun] at h; cases h
  | dead k => rw [step_of_dead hrun] at h; cases h

/-- Settles O57: the state a stuck step had reached is its effects' own, and no effect but the last write of a completed instruction touches `run`. -/
theorem stuckStepIsStillRunning : Obligations.StuckStepIsStillRunning := by
  intro s
  refine ⟨step_ne_refused s, fun f h => ?_⟩
  obtain ⟨hrun, rfl | ⟨ir, t, hf, hx⟩⟩ := step_fault h
  · exact ⟨s, .inl rfl, hrun, [], (List.append_nil _).symm⟩
  · obtain ⟨u, hstuck, hu⟩ := exec_fault_effects hx
    obtain ⟨sent, hsent⟩ := ((fetch_advances hf).trans hu.advances).output
    exact ⟨u, hstuck, hu.run.trans ((fetch_run hf).trans hrun), sent, hsent.symm⟩

end Sys2Proof.Machine
end

section
/-! Proofs for 30_encoding.md. Two facts tie the decoder to the encoder, each up to the bits an instruction uses (R88): a word that agrees with an
instruction's encoding decodes to its primary form, and every word agrees with the encoding of what it decodes to. The round trips, the ignored bits
and the rows of the opcode table follow from these two. -/

namespace Sys2Proof

/-! ## Fields of a word, and agreement under a mask -/

theorem field_of_masked_eq {v w m : Word} (h : v &&& m = w &&& m) {lo len : Nat} (hm : field m lo len = BitVec.allOnes len) :
    field v lo len = field w lo len := by
  have hx := congrArg (field · lo len) h
  simp only [field] at hm hx ⊢
  simpa only [BitVec.extractLsb'_and, hm, BitVec.and_allOnes] using hx

theorem bit_of_masked_eq {v w m : Word} (h : v &&& m = w &&& m) {k : Nat} (hm : bit m k = true) : bit v k = bit w k := by
  have hx := congrArg (bit · k) h
  simp only [bit] at hm hx ⊢
  simpa only [getLsbD_masked, hm, Bool.and_true] using hx

theorem field_eq_zero {w : Word} {lo : Nat} (h : w.toNat < 2 ^ lo) (len : Nat) : field w lo len = 0#len := by
  apply BitVec.eq_of_toNat_eq
  simp [field, Nat.shiftRight_eq_div_pow, Nat.div_eq_of_lt h]

theorem getLsbD_field (w : Word) (lo : Nat) {len i : Nat} (h : i < len) : (field w lo len).getLsbD i = bit w (lo + i) := by
  simp [field, bit, h]

theorem extract_field (w : Word) (lo : Nat) {len lo' len' : Nat} (h : lo' + len' ≤ len) :
    (field w lo len).extractLsb' lo' len' = field w (lo + lo') len' := by
  ext i hi
  simp [field, show lo' + i < len by omega, Nat.add_assoc]

theorem field_bit (w : Word) (k : Nat) : field w k 1 = BitVec.ofBool (bit w k) := by
  ext i hi
  simp [field, bit, show i = 0 by omega]

/-- The opcode, from the four bits the decoder matches (30_encoding.md R84, R85). -/
theorem field_opcode (w : Word) :
    field w 12 4 = BitVec.ofBool (bit w 15) ++ BitVec.ofBool (bit w 14) ++ BitVec.ofBool (bit w 13) ++ BitVec.ofBool (bit w 12) := by
  have key : ∀ op : BitVec 4, op = BitVec.ofBool (op.getLsbD 3) ++ BitVec.ofBool (op.getLsbD 2) ++ BitVec.ofBool (op.getLsbD 1) ++
      BitVec.ofBool (op.getLsbD 0) := by decide
  simpa only [getLsbD_field w 12 (len := 4), Nat.reduceAdd, Nat.reduceLT] using key (field w 12 4)

@[simp] theorem regHi_bits (w : Word) : (regHi w).bits = field w 9 3 := Reg.bits_ofBits _
@[simp] theorem regMid_bits (w : Word) : (regMid w).bits = field w 6 3 := Reg.bits_ofBits _
@[simp] theorem regLo_bits (w : Word) : (regLo w).bits = field w 0 3 := Reg.bits_ofBits _

/-- Bits 5:0 of a word with bit 5 set are an immediate form's (30_encoding.md R82, RI). -/
theorem lowRI_field {w : Word} (h : bit w 5 = true) : lowRI (field w 0 5) = field w 0 6 := by
  have key : ∀ x : BitVec 6, x.getLsbD 5 = true → lowRI (x.extractLsb' 0 5) = x := by decide
  rw [← key (field w 0 6) ((getLsbD_field w 0 (by omega)).trans h), extract_field w 0 (by omega)]

/-- Bits 5:0 of a word with bit 5 clear are a register form's but for bits 4:3 (30_encoding.md R82, RR; R88). -/
theorem lowRR_field_masked {w : Word} (h : bit w 5 = false) :
    lowRR (field w 0 3) &&& field 0xFFE7#16 0 6 = field w 0 6 &&& field 0xFFE7#16 0 6 := by
  have key : ∀ x : BitVec 6, x.getLsbD 5 = false →
      lowRR (x.extractLsb' 0 3) &&& field 0xFFE7#16 0 6 = x &&& field 0xFFE7#16 0 6 := by decide
  rw [← key (field w 0 6) ((getLsbD_field w 0 (by omega)).trans h), extract_field w 0 (by omega)]

/-- Bits 11:9 of a word with bit 11 clear are JSRR's but for bits 10:9 (30_encoding.md R82, JR; R88). -/
theorem jsrr_field_masked {w : Word} (h : bit w 11 = false) : 0#3 &&& field 0xF9C0#16 9 3 = field w 9 3 &&& field 0xF9C0#16 9 3 := by
  have key : ∀ x : BitVec 3, x.getLsbD 2 = false → 0#3 &&& field 0xF9C0#16 9 3 = x &&& field 0xF9C0#16 9 3 := by decide
  exact key (field w 9 3) ((getLsbD_field w 9 (by omega)).trans h)

/-! ## A layout agrees with a word under a mask when each field does under the mask's own field -/

section
variable {op op' unused unused' : BitVec 4} {hi hi' mid mid' : BitVec 3} {low6 low6' : BitVec 6} {low9 low9' : BitVec 9}
  {low8 low8' : BitVec 8} {w m : Word}

theorem layoutMB_and :
    layoutMB op hi mid low6 &&& layoutMB op' hi' mid' low6' = layoutMB (op &&& op') (hi &&& hi') (mid &&& mid') (low6 &&& low6') :=
  BitVec.and_append.trans (congrArg (· ++ (low6 &&& low6'))
    (BitVec.and_append.trans (congrArg (· ++ (mid &&& mid')) BitVec.and_append)))

theorem layoutMP_and : layoutMP op hi low9 &&& layoutMP op' hi' low9' = layoutMP (op &&& op') (hi &&& hi') (low9 &&& low9') :=
  BitVec.and_append.trans (congrArg (· ++ (low9 &&& low9')) BitVec.and_append)

theorem layoutTV_and :
    layoutTV op unused low8 &&& layoutTV op' unused' low8' = layoutTV (op &&& op') (unused &&& unused') (low8 &&& low8') :=
  BitVec.and_append.trans (congrArg (· ++ (low8 &&& low8')) BitVec.and_append)

theorem layoutMB_masked_eq (h12 : op = field w 12 4) (h9 : hi &&& field m 9 3 = field w 9 3 &&& field m 9 3)
    (h6 : mid &&& field m 6 3 = field w 6 3 &&& field m 6 3) (h0 : low6 &&& field m 0 6 = field w 0 6 &&& field m 0 6) :
    layoutMB op hi mid low6 &&& m = w &&& m := by
  conv_lhs => rw [← layoutMB_fields m, layoutMB_and, h12, h9, h6, h0, ← layoutMB_and, layoutMB_fields, layoutMB_fields]

theorem layoutMP_masked_eq (h12 : op = field w 12 4) (h9 : hi &&& field m 9 3 = field w 9 3 &&& field m 9 3)
    (h0 : low9 &&& field m 0 9 = field w 0 9 &&& field m 0 9) : layoutMP op hi low9 &&& m = w &&& m := by
  conv_lhs => rw [← layoutMP_fields m, layoutMP_and, h12, h9, h0, ← layoutMP_and, layoutMP_fields, layoutMP_fields]

theorem layoutTV_masked_eq (h12 : op = field w 12 4) (h8 : unused &&& field m 8 4 = field w 8 4 &&& field m 8 4)
    (h0 : low8 &&& field m 0 8 = field w 0 8 &&& field m 0 8) : layoutTV op unused low8 &&& m = w &&& m := by
  conv_lhs => rw [← layoutTV_fields m, layoutTV_and, h12, h8, h0, ← layoutTV_and, layoutTV_fields, layoutTV_fields]

end

/-! ## The decoder against the encoder -/

/-- A word that has an instruction's encoding in the bits it uses decodes to its primary form: all the bits and fields the decoder reads on the way to
that form are used bits (30_encoding.md R85, R88). -/
theorem decodePrimary_of_masked_encode {i : Instr} {w : Word} (h : w &&& i.usedBits = encode i &&& i.usedBits) :
    decodePrimary w = i.primary := by
  cases i with
  | getc | out | puts | inChar | putsp | halt | ret =>
    simp only [Instr.usedBits, encode] at h
    simp (disch := decide) only [decodePrimary, regMid, field_of_masked_eq h, bit_of_masked_eq h]
    rfl
  | _ =>
    simp only [Instr.usedBits, encode] at h
    simp (disch := decide) [decodePrimary, Instr.primary, regHi, regMid, regLo, field_of_masked_eq h, bit_of_masked_eq h]

/-- Every word has the encoding of the form it decodes to in the bits that form uses, by the nineteen forms in the order of 30_encoding.md R85. -/
theorem encode_decodePrimary_masked (w : Word) :
    encode (decodePrimary w) &&& (decodePrimary w).usedBits = w &&& (decodePrimary w).usedBits := by
  fun_cases decodePrimary w with
  | case1 | case4 | case5 | case14 | case15 | case18 => -- BR, LD, ST, LDI, STI, LEA
    exact layoutMP_masked_eq (by simp [field_opcode, *]) (by simp) rfl
  | case2 | case8 => -- ADD and AND, immediate form
    exact layoutMB_masked_eq (by simp [field_opcode, *]) (by simp) (by simp) (by simp [lowRI_field, *])
  | case3 | case9 => -- ADD and AND, register form
    exact layoutMB_masked_eq (by simp [field_opcode, *]) (by simp) (by simp)
      (regLo_bits w ▸ lowRR_field_masked (by simpa using ‹¬bit w 5 = true›))
  | case6 => -- JSR
    refine congrArg (· &&& _) (.trans ?_ (layoutJL_fields w))
    simp [encode, field_opcode, field_bit, *]
  | case7 => -- JSRR
    exact layoutMB_masked_eq (by simp [field_opcode, *]) (jsrr_field_masked (by simpa using ‹¬bit w 11 = true›)) (by simp)
      (by simp [Instr.usedBits, field])
  | case10 | case11 => -- LDR, STR
    exact layoutMB_masked_eq (by simp [field_opcode, *]) (by simp) (by simp) rfl
  | case12 | case17 => -- RTI, RES
    exact layoutMP_masked_eq (by simp [field_opcode, *]) (by simp [Instr.usedBits, field]) (by simp [Instr.usedBits, field])
  | case13 => -- NOT
    exact layoutMB_masked_eq (by simp [field_opcode, *]) (by simp) (by simp) (by simp [Instr.usedBits, field])
  | case16 => -- JMP
    exact layoutMB_masked_eq (by simp [field_opcode, *]) (by simp [Instr.usedBits, field]) (by simp) (by simp [Instr.usedBits, field])
  | case19 => -- TRAP
    exact layoutTV_masked_eq (by simp [field_opcode, *]) (by simp [Instr.usedBits, field]) rfl

/-! ## Alias rows and their primary forms (30_encoding.md R93) -/

theorem encode_primary (i : Instr) : encode i.primary = encode i := by cases i <;> rfl

theorem usedBits_primary (i : Instr) : i.primary.usedBits = i.usedBits := by cases i <;> rfl

theorem Instr.named_primary {i : Instr} (h : i.wellFormed = true) : i.primary.named = i := by
  cases i with
  | jmp base => exact if_neg (by simpa [Instr.wellFormed] using h)
  | trap v =>
    have hv : routineOfCode v = none := (routineOfCode_eq_none v).2 (by simpa [Instr.wellFormed] using h)
    simp [Instr.primary, Instr.named, nameTrap, hv]
  | trapUndefined v => cases h
  | _ => rfl

theorem Instr.primary_named (i : Instr) : i.named.primary = i.primary := by
  cases i with
  | jmp base => cases base <;> rfl
  | trap v =>
    rw [Instr.named]
    obtain ⟨-, hn⟩ | ⟨r, rfl, hn⟩ := nameTrap_cases v <;> rw [hn]
    cases r <;> rfl
  | _ => rfl

theorem decodePrimary_primary (w : Word) : (decodePrimary w).primary = decodePrimary w := by
  fun_cases decodePrimary w <;> rfl

theorem decode_primary (w : Word) : (decode w).primary = decodePrimary w :=
  (Instr.primary_named _).trans (decodePrimary_primary w)

theorem encode_decode_masked (w : Word) : encode (decode w) &&& (decode w).usedBits = w &&& (decode w).usedBits := by
  rw [← encode_primary, ← usedBits_primary, decode_primary]
  exact encode_decodePrimary_masked w

theorem decode_of_masked_encode {i : Instr} {w : Word} (hi : i.wellFormed = true) (h : w &&& i.usedBits = encode i &&& i.usedBits) :
    decode w = i := by
  rw [decode, decodePrimary_of_masked_encode h, Instr.named_primary hi]

/-- Settles O36: the encoding agrees with itself in the used bits. -/
theorem decodeOfEncodeIsIdentity : Obligations.DecodeOfEncodeIsIdentity :=
  fun _ hi => decode_of_masked_encode hi rfl

/-- Settles O39: the decoder's names are those of the most specific rows. -/
theorem decodedInstructionIsWellFormed : Obligations.DecodedInstructionIsWellFormed := Machine.decode_wellFormed

/-- Settles O37: what a word decodes to is well-formed, so its encoding decodes back to it. -/
theorem encodeOfDecodeKeepsUsedBits : Obligations.EncodeOfDecodeKeepsUsedBits :=
  fun w => ⟨encode_decode_masked w, decodeOfEncodeIsIdentity _ (decodedInstructionIsWellFormed w)⟩

/-- Settles O38: both words agree in the used bits with the encoding of what the first decodes to. -/
theorem ignoredBitsDoNotMatter : Obligations.IgnoredBitsDoNotMatter :=
  fun w _ h => decode_of_masked_encode (decodedInstructionIsWellFormed w) (h.trans (encode_decode_masked w).symm)

/-- Settles O40, by running the decoder on the twelve words. -/
theorem writtenOutWordsDecode : Obligations.WrittenOutWordsDecode := by
  unfold Obligations.WrittenOutWordsDecode
  decide

/-! ## The rows of the opcode table (30_encoding.md R93) -/

theorem OpcodeRow.fits_iff {row : OpcodeRow} {w : Word} : row.fits w = true ↔ w &&& row.mask = row.pattern := beq_iff_eq

theorem encode_fits_row (i : Instr) : i.row.fits (encode i) = true := by
  cases i with
  | br => exact Laws.EncodeFitsRow.br _ _
  | addReg => exact Laws.EncodeFitsRow.addReg _ _ _
  | addImm => exact Laws.EncodeFitsRow.addImm _ _ _
  | ld => exact Laws.EncodeFitsRow.ld _ _
  | st => exact Laws.EncodeFitsRow.st _ _
  | jsr => exact Laws.EncodeFitsRow.jsr _
  | jsrr => exact Laws.EncodeFitsRow.jsrr _
  | andReg => exact Laws.EncodeFitsRow.andReg _ _ _
  | andImm => exact Laws.EncodeFitsRow.andImm _ _ _
  | ldr => exact Laws.EncodeFitsRow.ldr _ _ _
  | str => exact Laws.EncodeFitsRow.str _ _ _
  | not => exact Laws.EncodeFitsRow.not _ _
  | ldi => exact Laws.EncodeFitsRow.ldi _ _
  | sti => exact Laws.EncodeFitsRow.sti _ _
  | jmp => exact Laws.EncodeFitsRow.jmp _
  | lea => exact Laws.EncodeFitsRow.lea _ _
  | trap => exact Laws.EncodeFitsRow.trap _
  | trapUndefined => exact Laws.EncodeFitsRow.trapUndefined _
  | rti | res | getc | out | puts | inChar | putsp | halt | ret => rfl

/-- An instruction uses every bit of its row's mask. -/
theorem usedBits_and_rowMask (i : Instr) : i.usedBits &&& i.row.mask = i.row.mask := by
  cases i <;> (simp only [Instr.usedBits, Instr.row]; decide)

theorem fits_row_of_masked_encode {i : Instr} {w : Word} (h : encode i &&& i.usedBits = w &&& i.usedBits) : i.row.fits w = true := by
  rw [OpcodeRow.fits_iff, ← usedBits_and_rowMask, ← BitVec.and_assoc, ← h, BitVec.and_assoc, usedBits_and_rowMask]
  exact OpcodeRow.fits_iff.1 (encode_fits_row i)

theorem decodePrimary_row_mem (w : Word) : (decodePrimary w).row ∈ primaryRows := by
  fun_cases decodePrimary w <;> simp [Instr.row, primaryRows]

theorem primaryRows_nodup : primaryRows.Nodup := by decide

/-- Two primary rows whose match patterns agree where both have a mask bit are the same row. -/
theorem primaryRows_separated : ∀ r ∈ primaryRows, ∀ r' ∈ primaryRows, r.pattern &&& r'.mask = r'.pattern &&& r.mask → r = r' := by
  decide

theorem primaryRow_unique {r r' : OpcodeRow} {w : Word} (hr : r ∈ primaryRows) (hr' : r' ∈ primaryRows) (h : r.fits w = true)
    (h' : r'.fits w = true) : r = r' := by
  refine primaryRows_separated r hr r' hr' ?_
  rw [← OpcodeRow.fits_iff.1 h, ← OpcodeRow.fits_iff.1 h', BitVec.and_assoc, BitVec.and_assoc, BitVec.and_comm r.mask]

/-- Settles O35: the row of the form a word decodes to is primary and the word fits it; no word fits two primary rows. -/
theorem everyWordFitsExactlyOnePrimaryRow : Obligations.EveryWordFitsExactlyOnePrimaryRow := by
  intro w
  refine ⟨?_, fits_row_of_masked_encode (encode_decode_masked w)⟩
  have hmem := decodePrimary_row_mem w
  have hfits := fits_row_of_masked_encode (encode_decodePrimary_masked w)
  have honly : ∀ r ∈ primaryRows, r.fits w = (r == (decodePrimary w).row) := fun r hr =>
    Bool.eq_iff_iff.2 ⟨fun h => beq_iff_eq.2 (primaryRow_unique hr hmem h hfits), fun h => beq_iff_eq.1 h ▸ hfits⟩
  rw [List.filter_congr honly, List.filter_beq, List.count_eq_one_of_mem primaryRows_nodup hmem, List.replicate_one]

end Sys2Proof

namespace Sys2Proof.Machine

theorem branchTaken_zero (c : Cond) : branchTaken 0#3 c = false := by cases c <;> rfl

/-- A branch with no mask bit is never taken, and it has no other effect (41_control.md R142). -/
theorem exec_br_zero (off : BitVec 9) (s : State) : exec (.br 0#3 off) s = .next s := by
  simp only [exec, execBr, branchTaken_zero]
  rfl

theorem decode_of_lt {w : Word} (h : w.toNat < 0x200) : decode w = .br 0#3 (field w 0 9) := by
  have h12 : field w 12 4 = 0#4 := field_eq_zero (lo := 12) (by omega) 4
  have h9 : field w 9 3 = 0#3 := field_eq_zero (lo := 9) h 3
  exact decode_of_masked_encode rfl (layoutMP_masked_eq h12.symm (by rw [h9]) rfl).symm

/-- Settles O16: such a word is BR with mask 0 (30_encoding.md R90). -/
theorem zeroMaskBranchOnlyAdvancesPc : Obligations.ZeroMaskBranchOnlyAdvancesPc := by
  intro s hr hpc hw
  rw [step_of_plain_fetch hr hpc, decode_of_lt hw, exec_br_zero]

/-- Settles O25: every row but TRAP_UNDEFINED runs its primary form's own routine; that row ends as the dispatch of a code without a routine. -/
theorem aliasActsAsItsPrimaryForm : Obligations.AliasActsAsItsPrimaryForm := by
  intro i s hundef
  cases i with
  | trapUndefined v =>
    have hv := (routineOfCode_eq_none v).2 (hundef v rfl)
    simp [Instr.primary, exec, execTrap, trapDispatch, hv, execTrapUndefined]
  | _ => rfl

end Sys2Proof.Machine
end

section
/-! Proofs for 40_alu.md. ADD, AND and NOT each end in one destination-register write, whose whole effect is said once; what is left of each
statement is the value written. -/

namespace Sys2Proof.Machine

/-- A destination-register write and its condition code, with the whole frame (10_state.md R28). -/
theorem destResult_writeDest (s : State) (dr : Reg) (v : Word) : DestResult s (s.writeDest dr v) dr v where
  value := by rw [State.writeDest_reg, if_pos rfl]
  flag := State.writeDest_cond s dr v
  regs := sameRegsExcept_setReg s dr v
  pc := State.writeDest_pc s dr v
  bytes := fun _ _ => rfl
  run := State.writeDest_run s dr v
  console := State.writeDest_console s dr v
  cfg := State.writeDest_cfg s dr v

/-- Settles O4: the word sum is the sum modulo 65536, for both forms. -/
theorem addWritesWrappedSumAndCond : Obligations.AddWritesWrappedSumAndCond := by
  intro s dr sr1 sr2 imm5
  constructor
  · exact ⟨_, s.reg sr1 + s.reg sr2, rfl, BitVec.toNat_add _ _, destResult_writeDest s dr _⟩
  · exact ⟨_, s.reg sr1 + sext imm5, rfl, BitVec.toNat_add _ _, destResult_writeDest s dr _⟩

/-- Settles O5: each bit of the word conjunction is the conjunction of the operands' bits, for both forms. -/
theorem andWritesBitwiseAndAndCond : Obligations.AndWritesBitwiseAndAndCond := by
  intro s dr sr1 sr2 imm5
  constructor
  · exact ⟨_, s.reg sr1 &&& s.reg sr2, rfl, fun _ => BitVec.getLsbD_and, destResult_writeDest s dr _⟩
  · exact ⟨_, s.reg sr1 &&& sext imm5, rfl, fun _ => BitVec.getLsbD_and, destResult_writeDest s dr _⟩

/-- Settles O6: the word complement is the distance to 65535. -/
theorem notWritesComplementAndCond : Obligations.NotWritesComplementAndCond :=
  fun s dr sr => ⟨_, ~~~(s.reg sr), rfl, BitVec.toNat_not, destResult_writeDest s dr _⟩

end Sys2Proof.Machine
end

section
/-! Proofs for 41_control.md. A control transfer writes `pc` and, where it links, R7; the whole effect of both is said once, and what is left of
each statement is the target. -/

namespace Sys2Proof.Machine

/-- A write of `pc`, with the whole frame (41_control.md R140). -/
theorem controlResult_setPc (s : State) (target : Word) : ControlResult s (s.setPc target) target [] where
  pc := State.setPc_pc s target
  regs := fun j _ => State.setPc_reg s target j
  cond := State.setPc_cond s target
  bytes := fun _ _ => rfl
  run := State.setPc_run s target
  console := State.setPc_console s target
  cfg := State.setPc_cfg s target

/-- A write of R7 and then of `pc`, with the whole frame (41_control.md R145, R147). -/
theorem controlResult_setReg_setPc (s : State) (link target : Word) :
    ControlResult s ((s.setReg .r7 link).setPc target) target [.r7] :=
  { controlResult_setPc (s.setReg .r7 link) target with regs := sameRegsExcept_setReg s .r7 link }

/-! ## The branch test, for each value of `cond` (41_control.md R141; the bit order is G2, log 17) -/

theorem branchTaken_negative : ∀ mask : BitVec 3, branchTaken mask .negative = mask.getLsbD 2 := by decide

theorem branchTaken_zeroFlag : ∀ mask : BitVec 3, branchTaken mask .zero = mask.getLsbD 1 := by decide

theorem branchTaken_positive : ∀ mask : BitVec 3, branchTaken mask .positive = mask.getLsbD 0 := by decide

/-- Settles O13: for each value of `cond` the branch test is that value's mask bit. -/
theorem brTakenByTheMaskBitOfCond : Obligations.BrTakenByTheMaskBitOfCond := by
  intro s mask off
  refine ⟨_, rfl, ?_⟩
  cases s.cond with
  | negative => rw [branchTaken_negative]; exact controlResult_setPc s _
  | zero => rw [branchTaken_zeroFlag]; exact controlResult_setPc s _
  | positive => rw [branchTaken_positive]; exact controlResult_setPc s _

/-- Settles O14: JMP and RET are each one write of `pc`. -/
theorem jmpAndRetGoToTheRegister : Obligations.JmpAndRetGoToTheRegister :=
  fun s base => ⟨⟨_, rfl, controlResult_setPc s (s.reg base)⟩, ⟨_, rfl, controlResult_setPc s (s.reg .r7)⟩⟩

/-- Settles O15: JSR and JSRR link R7 and write `pc`; the base of JSRR is a register as it stands after the link (D10, log 18). -/
theorem jsrAndJsrrLinkAndJump : Obligations.JsrAndJsrrLinkAndJump := by
  intro s off base
  constructor
  · exact ⟨_, rfl, rfl, controlResult_setReg_setPc s s.pc (s.pc + sext off)⟩
  · have hbase : (s.setReg .r7 s.pc).reg base = if base = .r7 then s.pc else s.reg base := State.setReg_reg s .r7 base s.pc
    exact ⟨_, rfl, rfl, hbase ▸ controlResult_setReg_setPc s s.pc _⟩

end Sys2Proof.Machine
end

section
/-! Proofs for 42_load_store.md. Each instruction is its reads, of which only one at `KBSR_ADDR` has an effect, and then one write: of a destination register, or of
a word of memory. -/

namespace Sys2Proof.Machine

/-! ## Stores, the pointer of STI by what its read answers (42_load_store.md R166 to R168) -/

section
variable {s t : State} {sr base : Reg} {off9 : BitVec 9} {off6 : BitVec 6} {p : Word}

theorem exec_st : exec (.st sr off9) s = .next (memWrite (s.pc + sext off9) (s.reg sr) s) := rfl

theorem exec_str : exec (.str sr base off6) s = .next (memWrite (s.reg base + sext off6) (s.reg sr) s) := rfl

/-- A read changes no register, so the word stored is the source register's before it. -/
theorem exec_sti_of_read (hr : memRead (s.pc + sext off9) s = .ok (p, t)) : exec (.sti sr off9) s = .next (memWrite p (s.reg sr) t) := by
  have hreg : t.reg sr = s.reg sr := (memRead_keeps hr).sameRegs [] sr List.not_mem_nil
  exact hreg ▸ withRead_of_ok hr _

end

/-- Settles O11: ST and STR are each one write of memory, which stores unconditionally. -/
theorem stAndStrStoreTheWord : Obligations.StAndStrStoreTheWord :=
  fun s _ _ _ _ hm => ⟨⟨_, exec_st, memWriteStoresUnconditionally s _ _ hm⟩, ⟨_, exec_str, memWriteStoresUnconditionally s _ _ hm⟩⟩

/-- Settles O12: by whether the read of the pointer polls; either way the write is of the memory that read left, which is canonical still. -/
theorem stiStoresThroughThePointer : Obligations.StiStoresThroughThePointer := by
  intro s sr off hm
  refine ⟨fun hne => ?_, fun hpc hc answer ha => ?_⟩
  · exact ⟨_, exec_sti_of_read (memRead_plain hne), memWriteStoresUnconditionally s _ _ hm⟩
  · obtain ⟨u, hr, hpolled⟩ := memRead_status_answered hm hc ha
    have k := memRead_keeps hr
    exact ⟨u, _, exec_sti_of_read (hpc ▸ hr), hpolled, k.sameRegs [], k.cond, k.pc, k.run, k.cfg,
      memWriteStoresUnconditionally u _ _ (memRead_wf hm hr)⟩

/-! ## LEA, and the loads whose reads do not poll (42_load_store.md R162 to R165) -/

/-- Settles O7: LEA is a destination-register write with no read before it. -/
theorem leaWritesAddressAndCond : Obligations.LeaWritesAddressAndCond :=
  fun s dr off => ⟨_, rfl, destResult_writeDest s dr (s.pc + sext off)⟩

/-- Settles O8: a read that does not poll leaves the state as it was. -/
theorem ldAndLdrLoadTheWord : Obligations.LdAndLdrLoadTheWord :=
  fun s dr _ _ _ => ⟨fun hne => ⟨_, exec_ld_of_read (memRead_plain hne), destResult_writeDest s dr _⟩,
    fun hne => ⟨_, exec_ldr_of_read (memRead_plain hne), destResult_writeDest s dr _⟩⟩

/-- Settles O9: neither the read of the pointer nor that of the data polls. -/
theorem ldiLoadsThroughThePointer : Obligations.LdiLoadsThroughThePointer :=
  fun s dr _ hcell hptr => ⟨_, exec_ldi_of_reads (memRead_plain hcell) (memRead_plain hptr), destResult_writeDest s dr _⟩

end Sys2Proof.Machine
end

section
/-! Proofs for 43_trap.md: the routines whose whole effect is one chain of state updates, and the string loop of PUTS and PUTSP. The loop's bound (log 12) rests
on one fact: a whole pass asks the console once, so after one pass for each listed answer, and one more, a pass leads back to the input it started from. -/

namespace Sys2Proof.Machine

/-! ## What a TRAP leaves, update by update (43_trap.md R182, R183) -/

section
variable {s t : State} {r0 : Word} {sent : List Byte} {answers : List (Option Byte)} {run : RunState}

/-- The link of R7 alone. -/
theorem trapResult_linkTrap (s : State) : TrapResult s (linkTrap s) (s.reg .r0) [] s.console.answers s.run where
  r0 := by simp
  r7 := by simp
  regs := fun j hj => by simp_all
  cond := linkTrap_cond s
  pc := linkTrap_pc s
  bytes := fun _ _ => rfl
  output := by simp
  answers := rfl
  rest := rfl
  run := linkTrap_run s
  cfg := linkTrap_cfg s

theorem TrapResult.consoleOut (h : TrapResult s t r0 sent answers run) (cs : List Byte) :
    TrapResult s (t.consoleOut cs) r0 (sent ++ cs) answers run :=
  { h with output := by rw [State.consoleOut_console, h.output, List.append_assoc] }

theorem TrapResult.setAnswers (h : TrapResult s t r0 sent answers run) (later : List (Option Byte)) :
    TrapResult s (t.setAnswers later) r0 sent later run :=
  { h with answers := rfl }

theorem TrapResult.setRun (h : TrapResult s t r0 sent answers run) (r : RunState) : TrapResult s (t.setRun r) r0 sent answers r :=
  { h with run := rfl }

theorem TrapResult.setR0 (h : TrapResult s t r0 sent answers run) (v : Word) : TrapResult s (t.setReg .r0 v) v sent answers run :=
  { h with
    r0 := by simp
    r7 := by simpa using h.r7
    regs := fun j hj => by
      have hj0 : j ≠ .r0 := fun e => hj (by simp [e])
      rw [State.setReg_reg, if_neg hj0]
      exact h.regs j hj }

end

/-! ## The routines without a loop -/

/-- Settles O17: the character the port gives comes to GETC's read, which writes it to R0. -/
theorem getcReadsOneCharacter : Obligations.GetcReadsOneCharacter := by
  intro s c hc
  exact ⟨_, readChar_of_char (s := linkTrap s) (consoleIn_of_nextAnswer hc), ((trapResult_linkTrap s).setAnswers _).setR0 _⟩

/-- Settles O18: the link leaves R0, whose low byte is sent. -/
theorem outSendsTheLowByteOfR0 : Obligations.OutSendsTheLowByteOfR0 := by
  intro s
  have h0 : (linkTrap s).reg .r0 = s.reg .r0 := (trapResult_linkTrap s).r0
  exact ⟨(linkTrap s).consoleOut [lowByte ((linkTrap s).reg .r0)], rfl, h0 ▸ (trapResult_linkTrap s).consoleOut _⟩

/-- Settles O21: the prompt, the read, the echo and R0, in that order. -/
theorem inPromptsReadsAndEchoes : Obligations.InPromptsReadsAndEchoes := by
  intro s c hc
  have prompted := (trapResult_linkTrap s).consoleOut s.cfg.inPrompt
  exact ⟨_, readChar_of_char (s := (linkTrap s).consoleOut s.cfg.inPrompt) (consoleIn_of_nextAnswer hc),
    ((prompted.setAnswers _).consoleOut [c]).setR0 _⟩

/-- Settles O22: the notice, then `halt`. -/
theorem haltSendsTheNoticeAndHalts : Obligations.HaltSendsTheNoticeAndHalts :=
  fun s => ⟨_, rfl, ((trapResult_linkTrap s).consoleOut s.cfg.haltNotice).setRun .halted, rfl⟩

theorem exec_trap_of_no_routine {v : BitVec 8} (h : routineOfCode v = none) (s : State) :
    exec (.trap v) s = .next (raiseFatal .undefinedTrap (linkTrap s)) := by
  rw [show exec (.trap v) s = trapDispatch v (linkTrap s) from rfl, trapDispatch, h]
  rfl

/-- Settles O23: a code outside the map selects no routine, and the row TRAP_UNDEFINED is that same end. -/
theorem undefinedTrapCodeIsFatal : Obligations.UndefinedTrapCodeIsFatal := by
  intro s v hv
  have hcode : routineOfCode v = none := (routineOfCode_eq_none v).2 (by simp [definedTrapCode]; omega)
  have dead := (trapResult_linkTrap s).setRun (.dead .undefinedTrap)
  exact ⟨⟨_, exec_trap_of_no_routine hcode s, dead, rfl⟩, ⟨_, rfl, dead, rfl⟩⟩

/-! ## The string loop as one run of words -/

section
variable {chars : Word → List Byte} {later : Word → State → Outcome} {m n p : Nat} {a : Word} {s t : State} {o o' : Outcome}

/-- The string loop from `a` comes to the answer `o` within `n` words, whatever would come later. -/
def ComesTo (chars : Word → List Byte) (n : Nat) (a : Word) (s : State) (o : Outcome) : Prop :=
  ∀ later, printPass chars later n a s = o

theorem printPass_of_error {f : Fault} (h : memRead a s = .error f) : printPass chars later (n + 1) a s = .fault f := by
  simp [printPass, h]

/-- A run of `m + n` words is one of `m` and then one of `n`. -/
theorem printPass_add (m : Nat) (a : Word) (s : State) :
    printPass chars later (m + n) a s = printPass chars (printPass chars later n) m a s := by
  induction m generalizing a s with
  | zero => rw [Nat.zero_add, printPass_zero]
  | succ m ih =>
    rw [Nat.succ_add]
    cases hr : memRead a s with
    | error f => rw [printPass_of_error hr, printPass_of_error hr]
    | ok r =>
      obtain ⟨w, u⟩ := r
      by_cases hw : w = 0#16
      · subst hw
        rw [printPass_of_zero hr, printPass_of_zero hr]
      · rw [printPass_of_ne_zero hr hw, printPass_of_ne_zero hr hw, ih]

/-- The bounded passes are one run of words, with the fault for an endless string behind it. -/
theorem printPasses_eq_printPass (p : Nat) (a : Word) (s : State) :
    printPasses chars p a s = printPass chars (fun _ u => .fault (.stringNeverEnds u)) (65536 * p) a s := by
  induction p generalizing a s with
  | zero => rfl
  | succ p ih =>
    rw [printPasses_succ, Nat.mul_succ, Nat.add_comm, printPass_add]
    exact congrArg (fun l => printPass chars l 65536 a s) (funext fun b => funext fun u => ih b u)

theorem ComesTo.mono (h : ComesTo chars m a s o) (hmn : m ≤ n) : ComesTo chars n a s o := by
  obtain ⟨k, rfl⟩ := Nat.exists_eq_add_of_le hmn
  exact fun later => (printPass_add m a s).trans (h _)

theorem ComesTo.unique (h : ComesTo chars m a s o) (h' : ComesTo chars n a s o') : o = o' :=
  (h.mono (Nat.le_add_right m n) fun _ u => .next u).symm.trans (h'.mono (Nat.le_add_left n m) _)

theorem ComesTo.printPasses_eq (h : ComesTo chars n a s o) (hn : n ≤ 65536 * p) : printPasses chars p a s = o :=
  (printPasses_eq_printPass p a s).trans (h.mono hn _)

/-- Everything the bounded passes can answer: that the string is endless, or what the loop comes to. -/
theorem printPasses_cases (chars : Word → List Byte) (p : Nat) (a : Word) (s : State) :
    (∃ u, printPasses chars p a s = .fault (.stringNeverEnds u)) ∨ ComesTo chars (65536 * p) a s (printPasses chars p a s) := by
  obtain ⟨o, ho, -⟩ | ⟨t, ht⟩ := printPass_cases chars (65536 * p) a s
  · exact .inr fun later => (ho later).trans ((printPasses_eq_printPass p a s).trans (ho _)).symm
  · exact .inl ⟨t, (printPasses_eq_printPass p a s).trans (ht _)⟩

end

/-! ## A terminated string that does not poll (43_trap.md R186, R188) -/

section
variable {chars : Word → List Byte} {a w : Word} {ws : List Word} {s : State}

/-- The link leaves R0, so the loop starts at the address R0 had before it (43_trap.md R182). -/
theorem printString_linkTrap (chars : Word → List Byte) (s : State) :
    printString chars (linkTrap s) = printPasses chars (passesToDecide (linkTrap s)) (s.reg .r0) (linkTrap s) := by
  rw [printString, (trapResult_linkTrap s).r0]

/-- The words from `a` on are the non-zero `ws` and then a zero word, none of them at `KBSR_ADDR`. -/
structure StringAt (s : State) (a : Word) (ws : List Word) : Prop where
  words : ∀ k (h : k < ws.length), s.mem.read (a + BitVec.ofNat 16 k) = ws[k] ∧ ws[k] ≠ 0#16
  stop : s.mem.read (a + BitVec.ofNat 16 ws.length) = 0#16
  plain : ∀ k, k ≤ ws.length → a + BitVec.ofNat 16 k ≠ s.cfg.kbsrAddr

theorem StringAt.plain_first (h : StringAt s a ws) : a ≠ s.cfg.kbsrAddr := by
  simpa using h.plain 0 (Nat.zero_le _)

theorem StringAt.tail (h : StringAt s a (w :: ws)) (cs : List Byte) : StringAt (s.consoleOut cs) (a + 1#16) ws where
  words k hk := by rw [next_address]; exact h.words (k + 1) (Nat.succ_lt_succ hk)
  stop := by rw [next_address]; exact h.stop
  plain k hk := by rw [next_address]; exact h.plain (k + 1) (Nat.succ_le_succ hk)

/-- Such a string misses one address at least, so one pass reads all of it. -/
theorem StringAt.length_lt (h : StringAt s a ws) : ws.length < 65536 := by
  by_contra hlen
  have hk := (s.cfg.kbsrAddr - a).isLt
  refine h.plain (s.cfg.kbsrAddr - a).toNat (by omega) ?_
  rw [BitVec.ofNat_toNat, BitVec.setWidth_eq, BitVec.add_comm, BitVec.sub_add_cancel]

/-- The loop sends the characters of every word and changes nothing else. -/
theorem StringAt.comesTo (h : StringAt s a ws) : ComesTo chars (ws.length + 1) a s (.next (s.consoleOut (ws.flatMap chars))) := by
  induction ws generalizing a s with
  | nil =>
    have hz : s.mem.read a = 0#16 := by simpa using h.stop
    have hnil : s.consoleOut [] = s := by simp [State.consoleOut]
    intro later
    rw [List.flatMap_nil, hnil]
    exact printPass_of_zero (hz ▸ memRead_plain h.plain_first)
  | cons w ws ih =>
    have hw : s.mem.read a = w ∧ w ≠ 0#16 := by simpa using h.words 0 (Nat.zero_lt_succ _)
    have hout : (s.consoleOut (chars w)).consoleOut (ws.flatMap chars) = s.consoleOut ((w :: ws).flatMap chars) := by
      simp [State.consoleOut]
    intro later
    rw [← hout]
    exact (printPass_of_ne_zero (hw.1 ▸ memRead_plain h.plain_first) hw.2).trans (ih (h.tail _) later)

/-- A routine that prints such a string from R0, run after the link (43_trap.md R182). -/
theorem StringAt.printString_eq (h : StringAt s (s.reg .r0) ws) :
    printString chars (linkTrap s) = .next ((linkTrap s).consoleOut (ws.flatMap chars)) := by
  have hlen := h.length_lt
  have hlinked : StringAt (linkTrap s) (s.reg .r0) ws := ⟨h.words, h.stop, h.plain⟩
  rw [printString_linkTrap]
  exact hlinked.comesTo.printPasses_eq (by rw [passesToDecide]; omega)

end

theorem putspChars_eq : putspChars = fun w => lowByte w :: (if highByte w ≠ 0#8 then [highByte w] else []) := by
  funext w
  by_cases h : highByte w = 0#8 <;> simp [putspChars, h]

/-- Settles O19: the loop's one pass, where PUTS sends one character a word. -/
theorem putsPrintsTheString : Obligations.PutsPrintsTheString := by
  intro s ws hwords hstop hplain
  refine ⟨_, StringAt.printString_eq ⟨hwords, hstop, hplain⟩, ?_⟩
  rw [List.map_eq_flatMap]
  exact (trapResult_linkTrap s).consoleOut _

/-- Settles O20: the same pass, where PUTSP sends the high byte too if it is not zero. -/
theorem putspPrintsThePackedString : Obligations.PutspPrintsThePackedString := by
  intro s ws hwords hstop hplain
  refine ⟨_, StringAt.printString_eq ⟨hwords, hstop, hplain⟩, ?_⟩
  rw [← putspChars_eq]
  exact (trapResult_linkTrap s).consoleOut _

/-! ## A whole pass polls once (20_memory.md R55; log 12) -/

section
variable {chars : Word → List Byte} {n : Nat} {a : Word} {s t u v : State}

theorem SameInput.refl (s : State) : SameInput s s := ⟨rfl, rfl, rfl, rfl⟩

theorem SameInput.symm (h : SameInput s t) : SameInput t s := ⟨h.mem.symm, h.answers.symm, h.rest.symm, h.cfg.symm⟩

theorem SameInput.trans (h : SameInput s t) (g : SameInput t u) : SameInput s u :=
  ⟨g.mem.trans h.mem, g.answers.trans h.answers, g.rest.trans h.rest, g.cfg.trans h.cfg⟩

theorem sameInput_consoleOut (s : State) (cs : List Byte) : SameInput s (s.consoleOut cs) := ⟨rfl, rfl, rfl, rfl⟩

theorem SameInput.consoleOut (h : SameInput s t) (cs : List Byte) : SameInput (s.consoleOut cs) (t.consoleOut cs) :=
  ⟨h.mem, h.answers, h.rest, h.cfg⟩

theorem poll_sameInput (h : SameInput s t) (hp : poll s = .ok u) : ∃ v, poll t = .ok v ∧ SameInput u v := by
  obtain ⟨v, hr, huv⟩ := memRead_sameInput h (memRead_status hp)
  obtain ⟨-, ⟨hne, -⟩ | ⟨-, hpt⟩⟩ := memRead_ok hr
  · exact absurd (congrArg Config.kbsrAddr h.cfg.symm) hne
  · exact ⟨v, hpt, huv⟩

/-- What the loop reads, and what it leaves to read, depends on the input only. -/
theorem GoesThrough.of_sameInput (h : GoesThrough chars n a s t) (hs : SameInput s u) :
    ∃ v, GoesThrough chars n a u v ∧ SameInput t v := by
  induction n generalizing a s u with
  | zero => exact ⟨u, goesThrough_zero _ _ _, goesThrough_zero_eq h ▸ hs⟩
  | succ n ih =>
    obtain ⟨w, s', hr, hw, hrest⟩ := goesThrough_succ_inv h
    obtain ⟨u', hru, hs'⟩ := memRead_sameInput hs hr
    obtain ⟨v, hv, htv⟩ := ih hrest (hs'.consoleOut _)
    exact ⟨v, goesThrough_succ hru hw hv, htv⟩

/-- Words short of `KBSR_ADDR` leave the input as it was. -/
theorem GoesThrough.sameInput (h : GoesThrough chars n a s t) (hfar : n ≤ (s.cfg.kbsrAddr - a).toNat) : SameInput s t := by
  induction n generalizing a s with
  | zero => exact goesThrough_zero_eq h ▸ .refl s
  | succ n ih =>
    obtain ⟨w, s', hr, -, hrest⟩ := goesThrough_succ_inv h
    obtain ⟨-, ⟨-, rfl⟩ | ⟨rfl, -⟩⟩ := memRead_ok hr
    · refine (sameInput_consoleOut s' _).trans (ih hrest ?_)
      rw [State.consoleOut_cfg]
      bv_omega
    · simp at hfar

/-- Words that take in `KBSR_ADDR`, once, leave the input its poll leaves. -/
theorem GoesThrough.polls (h : GoesThrough chars n a s t) (hnear : (s.cfg.kbsrAddr - a).toNat < n) (hn : n ≤ 65536) :
    ∃ u, poll s = .ok u ∧ SameInput u t := by
  induction n generalizing a s with
  | zero => omega
  | succ n ih =>
    obtain ⟨w, s', hr, -, hrest⟩ := goesThrough_succ_inv h
    obtain ⟨-, ⟨hne, rfl⟩ | ⟨rfl, hp⟩⟩ := memRead_ok hr
    · obtain ⟨u, hp, hu⟩ := ih hrest (by rw [State.consoleOut_cfg]; bv_omega) (by omega)
      obtain ⟨v, hpv, huv⟩ := poll_sameInput (sameInput_consoleOut s' _).symm hp
      exact ⟨v, hpv, huv.symm.trans hu⟩
    · refine ⟨s', hp, (sameInput_consoleOut s' _).trans (hrest.sameInput ?_)⟩
      rw [State.consoleOut_cfg, (poll_keeps hp).cfg]
      bv_omega

theorem GoesThrough.polls_of_pass (h : GoesThrough chars 65536 a s t) : ∃ u, poll s = .ok u ∧ SameInput u t :=
  h.polls (BitVec.isLt _) (Nat.le_refl _)

theorem poll_answers (h : poll s = .ok t) : t.console.answers = s.console.answers.tail := by
  obtain ⟨x, -, rfl⟩ := poll_ok h
  rfl

theorem GoesThrough.answers_of_pass (h : GoesThrough chars 65536 a s t) : t.console.answers = s.console.answers.tail := by
  obtain ⟨u, hp, hu⟩ := h.polls_of_pass
  exact hu.answers.trans (poll_answers hp)

theorem GoesThrough.wf_of_pass (h : GoesThrough chars 65536 a s t) (hm : Memory.wf s.mem = true) : Memory.wf t.mem = true := by
  obtain ⟨u, hp, hu⟩ := h.polls_of_pass
  exact hu.mem ▸ poll_wf hm hp

/-- Once the port repeats itself, a second poll leaves what the first left. -/
theorem poll_twice (hm : Memory.wf s.mem = true) (ha : s.console.answers = []) (hu : poll s = .ok u) (hv : poll u = .ok v) :
    SameInput u v := by
  obtain ⟨x, hx, rfl⟩ := poll_ok hu
  obtain ⟨y, hy, rfl⟩ := poll_ok hv
  have hxy : some x = some y := by
    rw [← nextAnswer_of_consoleIn hx, ← nextAnswer_of_consoleIn hy]
    simp [State.nextAnswer, ha]
  cases hxy
  refine ⟨?_, by simp [ha], rfl, rfl⟩
  cases x with
  | none => exact Memory.write_twice hm _ _
  | some c => exact Memory.write_two_twice hm _ _ _ _

/-- So the second of two passes leaves the input it started from. -/
theorem GoesThrough.sameInput_of_second_pass (h : GoesThrough chars 65536 a s t) (g : GoesThrough chars 65536 a t u)
    (hm : Memory.wf s.mem = true) (ha : s.console.answers = []) : SameInput t u := by
  obtain ⟨s', hs, hst⟩ := h.polls_of_pass
  obtain ⟨t', ht, htu⟩ := g.polls_of_pass
  obtain ⟨v, hv, htv⟩ := poll_sameInput hst.symm ht
  exact hst.symm.trans ((poll_twice hm ha hs hv).trans (htv.symm.trans htu))

/-! ## The bound on the passes is exact (43_trap.md R186, U7) -/

/-- No number of passes brings the loop from `a` to an end. -/
def Endless (chars : Word → List Byte) (a : Word) (s : State) : Prop := ∀ p, ∃ v, printPasses chars p a s = .fault (.stringNeverEnds v)

/-- If the passes are used up, the first of them went through. -/
theorem printPasses_succ_neverEnds {p : Nat} (h : printPasses chars (p + 1) a s = .fault (.stringNeverEnds v)) :
    ∃ t, GoesThrough chars 65536 a s t ∧ printPasses chars p a t = .fault (.stringNeverEnds v) := by
  obtain ⟨o, ho, hne⟩ | ⟨t, ht⟩ := printPass_cases chars 65536 a s
  · rw [printPasses_succ, ho] at h
    exact absurd h (hne v)
  · exact ⟨t, ht, printPasses_of_goesThrough ht ▸ h⟩

theorem GoesThrough.endless (h : GoesThrough chars 65536 a s t) (ht : Endless chars a t) : Endless chars a s
  | 0 => ⟨s, rfl⟩
  | p + 1 => printPasses_of_goesThrough h ▸ ht p

/-- A pass that leaves the input it started from repeats for ever. -/
theorem GoesThrough.endless_of_sameInput (h : GoesThrough chars 65536 a s t) (hst : SameInput s t) : Endless chars a s := by
  have endless : ∀ p u, SameInput s u → ∃ v, printPasses chars p a u = .fault (.stringNeverEnds v) := by
    intro p
    induction p with
    | zero => exact fun u _ => ⟨u, rfl⟩
    | succ p ih =>
      intro u hu
      obtain ⟨v, hv, htv⟩ := h.of_sameInput hu
      exact printPasses_of_goesThrough hv ▸ ih v (hst.trans htv)
  exact fun p => endless p s (.refl s)

end

/-- Settles O28, by induction on the listed answers: each pass takes one, and behind the last the second pass leaves the input it started from. -/
theorem hungStringNeverEnds : Obligations.HungStringNeverEnds := by
  intro chars a s u hm h
  rw [passesToDecide] at h
  change Endless chars a s
  induction hl : s.console.answers generalizing s with
  | nil =>
    rw [hl] at h
    obtain ⟨t, hst, ht⟩ := printPasses_succ_neverEnds h
    obtain ⟨v, htv, -⟩ := printPasses_succ_neverEnds ht
    exact hst.endless (htv.endless_of_sameInput (hst.sameInput_of_second_pass htv hm hl))
  | cons x later ih =>
    rw [hl] at h
    obtain ⟨t, hst, ht⟩ := printPasses_succ_neverEnds h
    have hlater : t.console.answers = later := by rw [hst.answers_of_pass, hl, List.tail_cons]
    exact hst.endless (ih t (hst.wf_of_pass hm) (by rw [hlater]; exact ht) hlater)

/-! ## The model's loop and the spec's (43_trap.md R186, R188) -/

section
variable {chars : Word → List Byte} {n : Nat} {a : Word} {s t : State} {o : Outcome}

theorem StringEnds.comesTo (h : StringEnds chars a s t) : ∃ n, ComesTo chars n a s (.next t) := by
  induction h with
  | stop hr => exact ⟨1, fun _ => printPass_of_zero hr⟩
  | more hr hw _ ih =>
    obtain ⟨n, hn⟩ := ih
    exact ⟨n + 1, fun later => (printPass_of_ne_zero hr hw).trans (hn later)⟩

theorem StringWaits.comesTo (h : StringWaits chars a s t) : ∃ n, ComesTo chars n a s (.fault (.consoleNeverAnswers t)) := by
  induction h with
  | wait hr => exact ⟨1, fun _ => printPass_of_error hr⟩
  | more hr hw _ ih =>
    obtain ⟨n, hn⟩ := ih
    exact ⟨n + 1, fun later => (printPass_of_ne_zero hr hw).trans (hn later)⟩

/-- What the model's loop comes to, the spec's loop comes to. -/
theorem ComesTo.ends_or_waits (h : ComesTo chars n a s o) :
    (∃ t, o = .next t ∧ StringEnds chars a s t) ∨ (∃ t, o = .fault (.consoleNeverAnswers t) ∧ StringWaits chars a s t) := by
  induction n generalizing a s with
  | zero => cases (h fun _ u => .next u).trans (h fun _ u => .fault (.stringNeverEnds u)).symm
  | succ n ih =>
    cases hr : memRead a s with
    | error f =>
      obtain rfl := (memRead_error hr).2.2
      exact .inr ⟨s, (h fun _ u => .next u).symm.trans (printPass_of_error hr), .wait hr⟩
    | ok r =>
      obtain ⟨w, u⟩ := r
      by_cases hw : w = 0#16
      · subst hw
        exact .inl ⟨u, (h fun _ u => .next u).symm.trans (printPass_of_zero hr), .stop hr⟩
      · obtain ⟨t, ho, ht⟩ | ⟨t, ho, ht⟩ := ih fun later => (printPass_of_ne_zero hr hw).symm.trans (h later)
        · exact .inl ⟨t, ho, .more hr hw ht⟩
        · exact .inr ⟨t, ho, .more hr hw ht⟩

/-- The bound loses no answer: what the loop comes to within any number of words, it comes to within the model's passes. -/
theorem ComesTo.printPasses_passesToDecide (hm : Memory.wf s.mem = true) (h : ComesTo chars n a s o) :
    printPasses chars (passesToDecide s) a s = o := by
  obtain ⟨u, hu⟩ | hbound := printPasses_cases chars (passesToDecide s) a s
  · obtain ⟨v, hv⟩ := hungStringNeverEnds chars a s u hm hu n
    have ho : printPasses chars n a s = o := h.printPasses_eq (by omega)
    obtain ⟨t, rfl, -⟩ | ⟨t, rfl, -⟩ := h.ends_or_waits <;> rw [ho] at hv <;> cases hv
  · exact hbound.unique h

/-- Everything the model's loop can answer, in the spec's terms. -/
theorem printPasses_ends_or_waits (chars : Word → List Byte) (p : Nat) (a : Word) (s : State) :
    (∃ u, printPasses chars p a s = .fault (.stringNeverEnds u)) ∨
    (∃ t, printPasses chars p a s = .next t ∧ StringEnds chars a s t) ∨
    (∃ t, printPasses chars p a s = .fault (.consoleNeverAnswers t) ∧ StringWaits chars a s t) :=
  (printPasses_cases chars p a s).imp_right ComesTo.ends_or_waits

theorem printPasses_next_iff (hm : Memory.wf s.mem = true) :
    printPasses chars (passesToDecide s) a s = .next t ↔ StringEnds chars a s t := by
  refine ⟨fun h => ?_, fun h => ?_⟩
  · obtain ⟨u, hu⟩ | ⟨u, hu, hends⟩ | ⟨u, hu, -⟩ := printPasses_ends_or_waits chars (passesToDecide s) a s <;> cases hu.symm.trans h
    exact hends
  · exact h.comesTo.elim fun _ hn => hn.printPasses_passesToDecide hm

theorem printPasses_neverAnswers_iff (hm : Memory.wf s.mem = true) :
    printPasses chars (passesToDecide s) a s = .fault (.consoleNeverAnswers t) ↔ StringWaits chars a s t := by
  refine ⟨fun h => ?_, fun h => ?_⟩
  · obtain ⟨u, hu⟩ | ⟨u, hu, -⟩ | ⟨u, hu, hwaits⟩ := printPasses_ends_or_waits chars (passesToDecide s) a s <;> cases hu.symm.trans h
    exact hwaits
  · exact h.comesTo.elim fun _ hn => hn.printPasses_passesToDecide hm

theorem printPasses_neverEnds_iff (hm : Memory.wf s.mem = true) :
    (∃ u, printPasses chars (passesToDecide s) a s = .fault (.stringNeverEnds u)) ↔
      (∀ t, ¬ StringEnds chars a s t) ∧ ∀ t, ¬ StringWaits chars a s t := by
  constructor
  · rintro ⟨u, hu⟩
    refine ⟨fun t h => ?_, fun t h => ?_⟩
    · cases hu.symm.trans ((printPasses_next_iff hm).2 h)
    · cases hu.symm.trans ((printPasses_neverAnswers_iff hm).2 h)
  · rintro ⟨hends, hwaits⟩
    obtain hu | ⟨t, -, h⟩ | ⟨t, -, h⟩ := printPasses_ends_or_waits chars (passesToDecide s) a s
    · exact hu
    · exact absurd h (hends t)
    · exact absurd h (hwaits t)

end

/-- Settles O29: each instruction is the model's loop from R0 after the link, and what that can answer is said in the spec's terms. -/
theorem putsAndPutspRunTheStringLoop : Obligations.PutsAndPutspRunTheStringLoop := by
  intro s hm i chars hi
  have hexec : exec i s = printPasses chars (passesToDecide (linkTrap s)) (s.reg .r0) (linkTrap s) := by
    obtain ⟨rfl, rfl⟩ | ⟨rfl, rfl⟩ := hi
    · exact printString_linkTrap putsChars s
    · rw [← putspChars_eq]
      exact printString_linkTrap putspChars s
  have hlinked : Memory.wf (linkTrap s).mem = true := hm
  refine ⟨linkTrap s, rfl, ?_⟩
  rw [hexec]
  exact ⟨fun t => printPasses_next_iff hlinked, fun t => printPasses_neverAnswers_iff hlinked, printPasses_neverEnds_iff hlinked⟩

end Sys2Proof.Machine
end

section
/-! Proofs for 44_reserved.md. RTI and RES each raise one fatal condition and do nothing else; the whole effect of a raise is said once, for every kind. -/

namespace Sys2Proof.Machine

/-- A raise of any fatal kind, with the whole frame (60_exceptions.md R214). -/
theorem fatalResult_raiseFatal (k : FatalKind) (s : State) : FatalResult s (raiseFatal k s) k where
  run := raiseFatal_run s k
  regs := fun j _ => raiseFatal_reg s k j
  cond := raiseFatal_cond s k
  pc := raiseFatal_pc s k
  bytes := fun _ _ => rfl
  console := raiseFatal_console s k
  cfg := raiseFatal_cfg s k

theorem exec_rti (s : State) : exec .rti s = .next (raiseFatal .reservedOpcode s) := rfl

theorem exec_res (s : State) : exec .res s = .next (raiseFatal .reservedOpcode s) := rfl

/-- R211: ReservedOpcode shows exit code 10. -/
theorem raiseFatal_reservedOpcode_exitCode (s : State) : (raiseFatal .reservedOpcode s).run.exitCode = some 10 := rfl

/-- Settles O24: both are the raise of ReservedOpcode. -/
theorem rtiAndResAreFatal : Obligations.RtiAndResAreFatal := by
  intro s
  have fatal := fatalResult_raiseFatal .reservedOpcode s
  have code := raiseFatal_reservedOpcode_exitCode s
  exact ⟨⟨_, exec_rti s, fatal, code⟩, ⟨_, exec_res s, fatal, code⟩⟩

end Sys2Proof.Machine
end

section
/-! Proofs for 60_exceptions.md. That nothing raises UndefinedOpcode is already part of what every step keeps; the rule is that fact read backwards. -/

namespace Sys2Proof.Machine

/-- Settles O50: a core that was not dead of the kind is not dead of it after an instruction or a step. -/
theorem undefinedOpcodeIsNeverRaised : Obligations.UndefinedOpcodeIsNeverRaised := by
  refine ⟨rfl, fun i s t hx => ?exec, fun s t hstep => ?step⟩
  case exec => exact not_imp_not.mp fun hs => exec_keeps_run_ne_undefinedOpcode hs hx
  case step => exact not_imp_not.mp fun hs => step_keeps_run_ne_undefinedOpcode hs hstep

end Sys2Proof.Machine
end

section
/-! Proofs for 70_reset_and_hazards.md: which instructions complete (R252), by how each read is answered, and the image loader's contract (R244 to R247). -/

namespace Sys2Proof.Machine

/-! ## Completion without console input (70_reset_and_hazards.md R252) -/

/-- A TRAP that runs none of GETC, IN, PUTS and PUTSP: OUT, HALT, or the fatal end of a code without a routine. -/
theorem exec_trap_completes {i : Instr} {s : State} (hi : i.isTrap = true) (hchar : i.readsConsole = false)
    (hputs : i.routine ≠ some .puts) (hputsp : i.routine ≠ some .putsp) : ∃ t, exec i s = .next t := by
  obtain ⟨v, hv, hexec⟩ := exec_eq_trapDispatch hi
  rw [hexec, trapDispatch, hv]
  cases hr : i.routine with
  | none => exact ⟨_, rfl⟩
  | some routine =>
    cases routine with
    | out | halt => exact ⟨_, rfl⟩
    | getc | inChar => simp [Instr.readsConsole, hr] at hchar
    | puts => exact absurd hr hputs
    | putsp => exact absurd hr hputsp

/-- Settles O55: the data reads do not poll, and a TRAP has no read left that could. -/
theorem instructionWithoutConsoleInputCompletes : Obligations.InstructionWithoutConsoleInputCompletes := by
  intro i s hchar hputs hputsp hreads
  cases i with
  | addReg | addImm | andReg | andImm | not | lea | br | jmp | ret | jsr | jsrr | st | str | rti | res => exact ⟨_, rfl⟩
  | ld | ldr | sti => exact ⟨_, withRead_of_ok (memRead_plain (hreads _ (.head _))) _⟩
  | ldi => exact ⟨_, exec_ldi_of_reads (memRead_plain (hreads _ (.head _))) (memRead_plain (hreads _ (.tail _ (.head _))))⟩
  | trap | getc | out | puts | inChar | putsp | halt | trapUndefined => exact exec_trap_completes rfl hchar hputs hputsp

/-! ## Completion when the console answers (70_reset_and_hazards.md R252) -/

/-- The port answers the next `n` calls of `ConsoleIn()`: so many answers are listed, or it goes on answering (20_memory.md R72). -/
def State.AnswersNext (s : State) (n : Nat) : Prop := n ≤ s.console.answers.length ∨ s.console.rest ≠ .silent

section
variable {s t : State} {a : Word} {n : Nat} {next : Word → State → Outcome}

theorem State.AnswersNext.consoleIn_ne_error {f : Fault} (h : s.AnswersNext (n + 1)) : consoleIn s ≠ .error f := by
  obtain ⟨_, _, -, hc⟩ | ⟨_, -, -, hc⟩ | ⟨hanswers, hrest, -⟩ := consoleIn_cases s
  · rw [hc]; nofun
  · rw [hc]; nofun
  · obtain hlen | hne := h
    · simp [hanswers] at hlen
    · exact absurd hrest hne

/-- A read takes at most one of the answers. -/
theorem State.AnswersNext.of_memRead {w : Word} (h : s.AnswersNext (n + 1)) (hr : memRead a s = .ok (w, t)) : t.AnswersNext n := by
  refine h.imp (fun hlen => ?_) (fun hne => (memRead_keeps hr).rest ▸ hne)
  obtain ⟨-, ⟨-, rfl⟩ | ⟨-, hp⟩⟩ := memRead_ok hr
  · exact Nat.le_of_succ_le hlen
  · rw [poll_answers hp, List.length_tail]
    exact Nat.le_sub_one_of_lt hlen

/-- A read that is answered, and what follows with one answer fewer. -/
theorem State.AnswersNext.withRead_completes (h : s.AnswersNext (n + 1)) (hnext : ∀ w t, t.AnswersNext n → ∃ u, next w t = .next u) :
    ∃ u, withRead a s next = .next u := by
  cases hr : memRead a s with
  | error f =>
    obtain ⟨-, hc, -⟩ := memRead_error hr
    exact absurd hc h.consoleIn_ne_error
  | ok p =>
    rw [withRead_of_ok hr]
    exact hnext _ _ (h.of_memRead hr)

end

/-- Settles O56: LD, LDR and STI read once, LDI twice. -/
theorem answeredReadsComplete : Obligations.AnsweredReadsComplete := by
  intro s r base off9 off6 h
  have h2 : s.AnswersNext 2 := h
  refine ⟨?ld, ?ldi, ?ldr, ?sti⟩
  case ldi => exact h2.withRead_completes fun _ _ h1 => h1.withRead_completes fun _ _ _ => ⟨_, rfl⟩
  all_goals exact h2.withRead_completes fun _ _ _ => ⟨_, rfl⟩

/-! ## The image loader (70_reset_and_hazards.md R244 to R247) -/

section
variable {hi lo : Byte} {b : List Byte}

theorem loadImage_of_fits (h : hi.toNat * 256 + lo.toNat + b.length / 2 ≤ 65536) (s : State) :
    loadImage (hi :: lo :: b) s = .next (loadWords (wordOfBytes hi lo) (imageWords b) s) := by
  rw [loadImage, if_pos (by rwa [toNat_wordOfBytes, imageWords_length])]

theorem loadImage_of_too_long (h : 65536 < hi.toNat * 256 + lo.toNat + b.length / 2) (s : State) :
    loadImage (hi :: lo :: b) s = .refused .imageTooLong := by
  rw [loadImage, if_neg (by rw [toNat_wordOfBytes, imageWords_length]; exact Nat.not_le.2 h)]

/-- The bytes after the load address count only by the words they make. -/
theorem loadImage_congr {b' : List Byte} (h : imageWords b' = imageWords b) (s : State) :
    loadImage (hi :: lo :: b') s = loadImage (hi :: lo :: b) s := by
  rw [loadImage, loadImage, h]

/-- An odd last byte is no word (70_reset_and_hazards.md R246 (a)). -/
theorem imageWords_concat_of_even (z : Byte) (h : b.length % 2 = 0) : imageWords (b ++ [z]) = imageWords b := by
  induction b using imageWords.induct with
  | case1 hi lo later ih =>
    rw [List.length_cons, List.length_cons] at h
    exact congrArg (wordOfBytes hi lo :: ·) (ih (by omega))
  | case2 => simp at h
  | case3 => rfl

end

/-- Settles O58: what storing the image's words leaves, each address taken by its distance from the load address, which wraps below it. -/
theorem loadImageStoresItsWords : Obligations.LoadImageStoresItsWords := by
  intro s hi lo b hm hfits
  have hbase := toNat_wordOfBytes hi lo
  have hlen := imageWords_length b
  have r := loadWords_stores (wordOfBytes hi lo) (imageWords b) s hm (by omega)
  refine ⟨_, loadImage_of_fits hfits s, fun k hk => ?_, fun a ha => ?_, r.regs, r.pc, r.cond, r.run, r.console, r.cfg⟩
  · have hdist : (BitVec.ofNat 16 (hi.toNat * 256 + lo.toNat + k) - wordOfBytes hi lo).toNat = k := by
      rw [← hbase]; bv_omega
    rw [r.words, hdist, List.getElem?_eq_getElem (by omega), Option.getD_some, imageWords_getElem b k hk, toNat_wordOfBytes]
  · have hdist : (imageWords b).length ≤ (a - wordOfBytes hi lo).toNat := by bv_omega
    rw [r.words, List.getElem?_eq_none hdist, Option.getD_none]

/-- Settles O59: the words that loading the images in order leaves. -/
theorem laterImageWins : Obligations.LaterImageWins := fun _ _ _ hm h => (loadImages_stored hm h).words

/-- Settles O60, by the length of the image. -/
theorem imageCornerCases : Obligations.ImageCornerCases := by
  intro s x y z b
  refine ⟨⟨rfl, rfl, rfl⟩, ⟨?none, ?odd⟩, fun heven => ?ignored, fun hlong => loadImage_of_too_long hlong s⟩
  case none => exact loadImage_of_fits (by rw [List.length_nil]; omega) s
  case odd => exact loadImage_of_fits (by rw [List.length_singleton]; omega) s
  case ignored => exact loadImage_congr (imageWords_concat_of_even z heven) s

end Sys2Proof.Machine
end
